-- ==== Sys2Proof/Word.lean ====
section
/-! DEFINITION. The word and byte types of the engine. -/

namespace Sys2Proof

/-- An engine register, a command word or a text-memory word: 32 bits (R7 `REG_WIDTH`, R60). -/
abbrev Word := BitVec 32

/-- A pixel-memory byte, one channel value: 8 bits (R7 `CHANNEL_BITS`, R60). -/
abbrev Byte := BitVec 8

end Sys2Proof
end

