-- ==== Sys2Proof/Syntax.lean ====
section
/-! DEFINITION. The engine's commands: one constructor per row of spec/opcode_table.json (R91). -/

namespace Sys2Proof

/-- Engine command set 1 (R2, R91). No command has an immediate field (R93): every operand is read at
completion from the input registers and the memories. -/
inductive Instr where
  /-- 0x01 EMBED (R170). -/
  | embed
  /-- 0x02 EXTRACT (R172). -/
  | extract
  /-- 0x03 CAPACITY (R151). -/
  | capacity
  /-- 0x04 SER_BYTE (R110). -/
  | serByte
  /-- 0x05 CHAN_EMBED (R125). -/
  | chanEmbed
  /-- 0x06 CHAN_EXTRACT (R126). -/
  | chanExtract
  /-- 0x07 PIX_SELECT (R152). -/
  | pixSelect
  /-- 0x08 SENT_MATCH (R153). -/
  | sentMatch
  deriving DecidableEq, Repr

end Sys2Proof
end

