-- ==== Sys2Proof/WellFormed.lean ====
section
/-! DEFINITION. What makes a command and a command word well formed. -/

namespace Sys2Proof

/-- A command has no operand field (R93), so every term of `Instr` is well formed. -/
def Instr.wf (_ : Instr) : Bool := true

/-- The reserved field RSVD, bits [31:8] of a command word, is 0 (R90). -/
def rsvdZero (w : Word) : Bool := w.extractLsb' 8 24 == 0

/-- The OPCODE field, bits [7:0] of a command word, is one of 0x01 to 0x08 (R91). -/
def opcodeListed (w : Word) : Bool :=
  decide (1 ≤ (w.extractLsb' 0 8).toNat) && decide ((w.extractLsb' 0 8).toNat ≤ 8)

/-- A command word is legal exactly when RSVD is 0 and OPCODE is listed (R91, R92). -/
def legalWord (w : Word) : Bool := rsvdZero w && opcodeListed w

end Sys2Proof
end

