-- ==== Sys2Proof/Decode.lean ====
section
/-! DEFINITION. The decoder of command words (format CMD32, R90 to R92), total, rejecting by name, and the
encoder. -/

namespace Sys2Proof

/-- Why a command word is illegal (R92). Its completion raises ILLEGAL (R203). -/
inductive DecodeError where
  /-- RSVD, bits [31:8], is not 0. -/
  | reservedBits
  /-- OPCODE, bits [7:0], is 0x00 or 0x09 to 0xFF. -/
  | reservedOpcode
  deriving DecidableEq, Repr

/-- The OPCODE field of a command word (R90). -/
def opcodeField (w : Word) : BitVec 8 := w.extractLsb' 0 8

/-- The RSVD field of a command word (R90). -/
def rsvdField (w : Word) : BitVec 24 := w.extractLsb' 8 24

/-- The opcode map of R91. -/
def opcodeMap : List (BitVec 8 × Instr) :=
  [(0x01#8, .embed), (0x02#8, .extract), (0x03#8, .capacity), (0x04#8, .serByte),
   (0x05#8, .chanEmbed), (0x06#8, .chanExtract), (0x07#8, .pixSelect), (0x08#8, .sentMatch)]

/-- The command an OPCODE value selects (R91). -/
def commandOf (op : BitVec 8) : Option Instr := (opcodeMap.find? fun row => row.1 == op).map Prod.snd

/-- Decode a command word (R91, R92). "A decoder needs only the written word" (R90). -/
def decode (w : Word) : Except DecodeError Instr :=
  if rsvdField w = 0 then
    match commandOf (opcodeField w) with
    | some i => .ok i
    | none => .error .reservedOpcode
  else .error .reservedBits

/-- The OPCODE value of a command (R91). -/
def opcodeOf : Instr → BitVec 8
  | .embed => 0x01
  | .extract => 0x02
  | .capacity => 0x03
  | .serByte => 0x04
  | .chanEmbed => 0x05
  | .chanExtract => 0x06
  | .pixSelect => 0x07
  | .sentMatch => 0x08

/-- The command word of a command: RSVD = 0 over its OPCODE (R90, R91). -/
def encode (i : Instr) : Word := (0#24 ++ opcodeOf i : BitVec 32)

/-- The command of a row of spec/opcode_table.json whose bits are `w`: the format CMD32 is one 32-bit word, and
every bit above `nbits` is 0. `none` where `decode` refuses. -/
def decodeTableWord (nbits w : Nat) : Option Instr :=
  if w % 2 ^ nbits < 2 ^ 32 then
    match decode (BitVec.ofNat 32 (w % 2 ^ nbits)) with
    | .ok i => some i
    | .error _ => none
  else none

end Sys2Proof
end

