-- ==== Sys2Proof/Config.lean ====
section
/-! DEFINITION. What an implementation of the engine fixes (the OPEN parameters of R7) and the free
values: constants without a body, whose value nothing in Lean can see. -/

namespace Sys2Proof

/-- The OPEN parameters of R7 (U11, U12), with the bounds of that rule carried by the types. The machine's
state holds them and no step changes them, so a statement about every state is one about every build. -/
structure Params where
  /-- `PIX_BYTES`, the size of pixel memory in bytes: 0 to 2^32 (R7). -/
  pixBytes : Fin 4294967297
  /-- `TEXT_DEPTH`, the number of words of text memory: 0 to 536870906 = 2^29 - 6 (R7). -/
  textDepth : Fin 536870907
  deriving DecidableEq, Repr

/-- The build `State.reset` stands for: the sizes the test vectors of 95_test_vectors.md assume.
DESIGN CHOICE (log entry 2): R7 leaves both OPEN; `State.powerOn` takes any build. -/
def Config.params : Params := { pixBytes := 65536, textDepth := 4096 }

/-- The free value of the `k`-th unspecified 32-bit read (R43, U3; R68, U4), `k` being `State.freeCount`
when the read is made. -/
opaque Config.freeWord : Nat → Word

/-- The free value of the `k`-th unspecified 8-bit read (R68, U4). -/
opaque Config.freeByte : Nat → Byte

/-- What an engine read of the unwritten pixel byte `a` gives (R212: "it reads an unspecified value").
No completion reads one: the UNINIT check of R66 comes first. -/
opaque Config.unwrittenByte : Nat → Byte

/-- What an engine read of the unwritten text word `j` gives (R212). No completion reads one. -/
opaque Config.unwrittenWord : Nat → Word

end Sys2Proof
end

