-- ==== Sys2Proof/Machine/State.lean ====
section
/-! DEFINITION. The state of the engine and of the host that drives it, as plain data, and the state after
power-on reset. -/

namespace Sys2Proof.Machine

/-- Sparse memory of `n`-bit cells: (address, value) pairs, addresses strictly rising. A listed address is
*written*, an unlisted one *unwritten* (R66). For pixel memory the pairs are `Host.Cell`. -/
abbrev Memory (n : Nat) := List (Nat × BitVec n)

/-- The fourteen registers of the register space (R20). -/
inductive Reg where
  | cmd | status | width | height | channels | textLen | opa | opb
  | result | procCount | capBits | reqBits | sentPos | bitsScanned
  deriving DecidableEq, Repr

/-- A move of the host on the engine's ports (R14, R67, R68), or its polling loop (R95). -/
inductive HostOp where
  /-- Register port write of `bytes` bytes at `offset`; only a whole aligned word has a meaning (R67). -/
  | regWrite (offset : BitVec 8) (bytes : Nat) (value : Word)
  /-- Register port read (R67). -/
  | regRead (offset : BitVec 8) (bytes : Nat)
  /-- Pixel port write of one byte (R68). -/
  | pixWrite (addr : Nat) (value : Byte)
  /-- Pixel port read of one byte (R68). -/
  | pixRead (addr : Nat)
  /-- Text port write of one word (R68). -/
  | txtWrite (idx : Nat) (value : Word)
  /-- Text port read of one word (R68). -/
  | txtRead (idx : Nat)
  /-- `WAIT`: read STATUS again and again until DONE = 1 (R95). -/
  | wait
  deriving DecidableEq, Repr

/-- Who makes a move: the host, the engine (R14), or the platform, which applies a reset (R230). -/
inductive Turn where
  | host
  | engine
  | reset
  deriving DecidableEq, Repr

/-- The machine. First the spec's own state (R20, R44, R60), then the model's: the build's parameters (R7),
the host agent (R14), the order of the moves (R241) and the counter of the free values (R43, R68). -/
structure State where
  /-- STATUS (R24 to R29): the stored bits [7:0]; bits [31:8] are reserved and read as 0. -/
  status : BitVec 8
  /-- WIDTH (R30): the stored bits [14:0]. -/
  width : BitVec 15
  /-- HEIGHT (R31): the stored bits [14:0]. -/
  height : BitVec 15
  /-- CHANNELS (R32): the stored bits [2:0]. -/
  channels : BitVec 3
  /-- TEXT_LEN (R33). -/
  textLen : Word
  /-- OPA (R34). -/
  opa : Word
  /-- OPB (R35). -/
  opb : Word
  /-- RESULT (R36). -/
  result : Word
  /-- PROC_COUNT (R37). -/
  procCount : Word
  /-- CAP_BITS (R38). -/
  capBits : Word
  /-- REQ_BITS (R39). -/
  reqBits : Word
  /-- SENT_POS (R40). -/
  sentPos : Word
  /-- BITS_SCANNED (R41). -/
  bitsScanned : Word
  /-- PEND, the hidden latch of the accepted command word (R44). -/
  pend : Word
  /-- Pixel memory PIX (R60): the written bytes (R47(a), R66). -/
  pix : List Host.Cell
  /-- Text memory TXT (R60): the written words (R47(a), R66). -/
  txt : List (Nat × Word)
  /-- The build: PIX_BYTES and TEXT_DEPTH (R7). No step changes it. -/
  params : Params
  /-- The model's own: the host's remaining moves, next first (R14, R94). -/
  host : List HostOp
  /-- The model's own: who makes the next moves, next first (R241, U13; log entry 7). -/
  turns : List Turn
  /-- The model's own: the value the host's last read returned, zero-extended; `none` before any. -/
  lastRead : Option Word
  /-- The model's own: how many free values have been drawn (R43, R68; log entry 3). -/
  freeCount : Nat
  deriving DecidableEq, Repr

/-- Why a step stops with a fault. -/
inductive Fault where
  /-- UNINIT (R212): raised by the completion of EMBED, EXTRACT, CAPACITY or SER_BYTE that reaches a read point
  of R66 with an unwritten location in the named region. Safe: the hardware goes on with an unspecified value. -/
  | uninit
  deriving DecidableEq, Repr

/-- Why a step has no meaning. -/
inductive Refusal where
  /-- An instruction whose arm of `exec` has no meaning yet (none in this model). Safe. -/
  | notModelled (mnemonic : String)
  /-- R213(a): raised by a host register access that is not a whole aligned 32-bit word (R67). Safe. -/
  | partialRegisterAccess
  /-- R213(b): raised by a host PIX or TXT port access while STATUS.BUSY = 1 (R70). Safe. -/
  | memoryAccessWhileBusy
  deriving DecidableEq, Repr

/-- What a step answers. -/
abbrev Result := Host.Outcome State Fault Refusal

/-- The state right after power-on reset of a build (R230 to R232): every register and PEND 0, every memory
location unwritten. The model's own fields start empty. -/
def State.powerOn (p : Params) : State :=
  { status := 0, width := 0, height := 0, channels := 0, textLen := 0, opa := 0, opb := 0, result := 0,
    procCount := 0, capBits := 0, reqBits := 0, sentPos := 0, bitsScanned := 0, pend := 0,
    pix := [], txt := [], params := p, host := [], turns := [], lastRead := none, freeCount := 0 }

/-- The state after power-on reset of the build `Config.params`. -/
def State.reset : State := State.powerOn Config.params

end Sys2Proof.Machine
end

