-- ==== Sys2Proof/Machine/Flags.lean ====
section
/-! DEFINITION. The fields of STATUS (R24 to R29) and the error codes (R200). -/

namespace Sys2Proof.Machine

/-- The errors of R200. -/
inductive ErrCode where
  | none | capacity | encoding | config | illegal | range
  deriving DecidableEq, Repr

/-- The code of STATUS.ERR (R28, R200). -/
def errCode : ErrCode → BitVec 4
  | .none => 0
  | .capacity => 1
  | .encoding => 2
  | .config => 3
  | .illegal => 4
  | .range => 5

/-- STATUS.BUSY, bit 0 (R24). -/
def busyBit (w : BitVec 8) : Bool := w.getLsbD 0

/-- STATUS.DONE, bit 1 (R25). -/
def doneBit (w : BitVec 8) : Bool := w.getLsbD 1

/-- STATUS.SFOUND, bit 2 (R26). -/
def sfoundBit (w : BitVec 8) : Bool := w.getLsbD 2

/-- STATUS.TRUNC, bit 3 (R27). -/
def truncBit (w : BitVec 8) : Bool := w.getLsbD 3

/-- STATUS.ERR, bits [7:4] (R28). -/
def errField (w : BitVec 8) : BitVec 4 := w.extractLsb' 4 4

/-- STATUS from its fields: ERR, TRUNC, SFOUND, DONE and BUSY from the top down (R24 to R28). -/
def packStatus (err : BitVec 4) (trunc sfound done busy : Bool) : BitVec 8 :=
  err ++ BitVec.ofBool trunc ++ BitVec.ofBool sfound ++ BitVec.ofBool done ++ BitVec.ofBool busy

/-- STATUS at acceptance: 0x00000001 (R23). -/
def statusAccepted : BitVec 8 := packStatus 0 false false false true

/-- STATUS at completion: ERR written, BUSY cleared, DONE set, SFOUND and TRUNC kept (R205). -/
def statusCompleted (e : ErrCode) (w : BitVec 8) : BitVec 8 :=
  packStatus (errCode e) (truncBit w) (sfoundBit w) true false

/-- STATUS with SFOUND and TRUNC written, as EXTRACT does (R26, R27, R172). -/
def statusWithFlags (sfound trunc : Bool) (w : BitVec 8) : BitVec 8 :=
  packStatus (errField w) trunc sfound (doneBit w) (busyBit w)

/-- The engine runs a command (R24). -/
def isBusy (s : State) : Bool := busyBit s.status

end Sys2Proof.Machine
end

