-- ==== Sys2Proof/Machine/Ops.lean ====
section
/-! DEFINITION. The named operations over memory and registers: sparse memory (R61 to R66), the completion of a
command and the raising of its error (R205 to R209), acceptance (R23), and a reset applied by the platform
(R230 to R232). -/

namespace Sys2Proof.Machine

/-- The canonical form: addresses strictly rising. An unlisted address is unwritten, so no entry can equal what
an unlisted address reads as (R66). -/
abbrev Memory.wf {n : Nat} (m : List (Nat × BitVec n)) : Prop := m.Pairwise fun c d => c.1 < d.1

/-- The value at an address; `none` where it is unwritten (R66). -/
def Memory.find {n : Nat} : List (Nat × BitVec n) → Nat → Option (BitVec n)
  | [], _ => none
  | c :: m, a => if c.1 = a then some c.2 else Memory.find m a

/-- Write one location, which becomes written, and no other (R63, R65, R66). -/
def Memory.store {n : Nat} : List (Nat × BitVec n) → Nat → BitVec n → List (Nat × BitVec n)
  | [], a, v => [(a, v)]
  | c :: m, a, v =>
    if a < c.1 then (a, v) :: c :: m
    else if a = c.1 then (a, v) :: m
    else c :: Memory.store m a v

/-- Mark every address below `bound` unwritten (R231). -/
def Memory.forgetBelow {n : Nat} (m : List (Nat × BitVec n)) (bound : Nat) : List (Nat × BitVec n) :=
  m.filter fun c => decide (bound ≤ c.1)

/-- The address is written (R66). -/
def Memory.isWritten {n : Nat} (m : List (Nat × BitVec n)) (a : Nat) : Bool := (Memory.find m a).isSome

/-- Every address below `bound` is written (R66: a whole region). -/
def Memory.writtenBelow {n : Nat} (m : List (Nat × BitVec n)) (bound : Nat) : Bool :=
  (List.range bound).all fun a => Memory.isWritten m a

/-- `PixRead(a)` (R62). -/
def pixRead (m : List Host.Cell) (a : Nat) : Byte := (Memory.find m a).getD (Config.unwrittenByte a)

/-- `TxtRead(j)` (R64). -/
def txtRead (m : List (Nat × Word)) (j : Nat) : Word := (Memory.find m j).getD (Config.unwrittenWord j)

/-- `TxtWrite(j, zext_32(b))`, `TxtWrite(j + 1, …)`, … for the bytes of an output (R65). -/
def writeText (m : List (Nat × Word)) (j : Nat) : List Byte → List (Nat × Word)
  | [] => m
  | b :: bs => writeText (Memory.store m j (b.setWidth 32)) (j + 1) bs

/-- The STATUS writes of a completion (R205), ending a command with error `e`. -/
def complete (e : ErrCode) (s : State) : State := { s with status := statusCompleted e s.status }

/-- `raise E` (R11, R205): the command ends at once; of what it wrote nothing is undone, and only the completion
writes are added. There is no trap entry, no saved state and no return (R208, R209): the error is the value of
STATUS.ERR. -/
def raise (e : ErrCode) (s : State) : Result := .next (complete e s)

/-- A command ends with no error (R205). -/
def finish (s : State) : Result := .next (complete .none s)

/-- RESULT written (R36). -/
def setResult (v : Word) (s : State) : State := { s with result := v }

/-- PROC_COUNT, CAP_BITS and REQ_BITS, written together (R37 to R39): `p` processed pixels, `n` code points. -/
def setCounts (p n : Nat) (s : State) : State :=
  { s with
    procCount := BitVec.ofNat 32 p
    capBits := BitVec.ofNat 32 (3 * p)
    reqBits := BitVec.ofNat 32 (8 * (n + 5)) }

/-- Acceptance of a command word (R23): PEND latches it, STATUS becomes 0x00000001. -/
def accept (w : Word) (s : State) : State := { s with pend := w, status := statusAccepted }

/-- A reset applied by the platform at a time other than power-on (R230 to R232): every register and PEND become
0, a command that has not completed is abandoned, and, if there was one, the image region and all of text memory
become unwritten (R231). The host is another agent: its moves and what it has read are kept (log entry 12). -/
def platformReset (s : State) : State :=
  { State.powerOn s.params with
    pix := if isBusy s then
        Memory.forgetBelow s.pix (s.width.toNat * s.height.toNat * s.channels.toNat) else s.pix
    txt := if isBusy s then Memory.forgetBelow s.txt s.params.textDepth.val else s.txt
    host := s.host
    turns := s.turns
    lastRead := s.lastRead
    freeCount := s.freeCount }

end Sys2Proof.Machine
end

