-- ==== Sys2Proof/Machine/Operands.lean ====
section
/-! DEFINITION. The operands a command reads at completion (R93) and the configuration check over them (R202). -/

namespace Sys2Proof.Machine

/-- W = WIDTH[14:0] (R30, R93). -/
def imgW (s : State) : Nat := s.width.toNat

/-- H = HEIGHT[14:0] (R31, R93). -/
def imgH (s : State) : Nat := s.height.toNat

/-- C = CHANNELS[2:0] (R32, R93). -/
def imgC (s : State) : Nat := s.channels.toNat

/-- n = TEXT_LEN (R33, R93). -/
def textCount (s : State) : Nat := s.textLen.toNat

/-- W * H * C, the size of the image region in bytes, exact (R61, R202). -/
def imageBytes (s : State) : Nat := imgW s * imgH s * imgC s

/-- PIX_BYTES (R7). -/
def pixSize (s : State) : Nat := s.params.pixBytes.val

/-- TEXT_DEPTH (R7). -/
def textSize (s : State) : Nat := s.params.textDepth.val

/-- v = OPA[7:0] of CHAN_EMBED and CHAN_EXTRACT (R125, R126). -/
def channelOperand (s : State) : Byte := s.opa.extractLsb' 0 8

/-- m = OPB[0] of CHAN_EMBED (R125). -/
def payloadBitOperand (s : State) : Bool := s.opb.getLsbD 0

/-- j = OPA of SER_BYTE (R110). -/
def indexOperand (s : State) : Nat := s.opa.toNat

/-- R = OPA[7:0] of PIX_SELECT (R152). -/
def redOperand (s : State) : Byte := s.opa.extractLsb' 0 8

/-- G = OPA[15:8] of PIX_SELECT (R152). -/
def greenOperand (s : State) : Byte := s.opa.extractLsb' 8 8

/-- B = OPA[23:16] of PIX_SELECT (R152). -/
def blueOperand (s : State) : Byte := s.opa.extractLsb' 16 8

/-- A = OPA[31:24] of PIX_SELECT (R152). -/
def alphaOperand (s : State) : Byte := s.opa.extractLsb' 24 8

/-- WIN = { OPB[7:0], OPA[31:0] } of SENT_MATCH, 40 bits (R153). -/
def windowOperand (s : State) : BitVec 40 := s.opb.extractLsb' 0 8 ++ s.opa

/-- The commands whose CONFIG check reads C (R202, first line). -/
def checksChannels : Instr → Bool
  | .embed | .extract | .capacity | .pixSelect => true
  | .serByte | .chanEmbed | .chanExtract | .sentMatch => false

/-- The commands whose CONFIG check bounds the image region (R202, second line). -/
def checksImage : Instr → Bool
  | .embed | .extract | .capacity => true
  | .serByte | .chanEmbed | .chanExtract | .pixSelect | .sentMatch => false

/-- The commands whose CONFIG check bounds TEXT_LEN (R202, third line). -/
def checksTextLen : Instr → Bool
  | .embed | .capacity | .serByte => true
  | .extract | .chanEmbed | .chanExtract | .pixSelect | .sentMatch => false

/-- The command whose CONFIG check bounds its worst-case output (R202, fourth line). -/
def checksOutput : Instr → Bool
  | .extract => true
  | .embed | .capacity | .serByte | .chanEmbed | .chanExtract | .pixSelect | .sentMatch => false

/-- `check_config(kind)` raises CONFIG (R202). The products are exact, without wrap. -/
def configError (kind : Instr) (s : State) : Bool :=
  (checksChannels kind && !(decide (imgC s = 3) || decide (imgC s = 4))) ||
  (checksImage kind && decide (pixSize s < imgW s * imgH s * imgC s)) ||
  (checksTextLen kind && decide (textSize s < textCount s)) ||
  (checksOutput kind && decide (textSize s < 3 * imgW s * imgH s / 8))

/-- The image region, bytes 0 to W*H*C-1, is written (R66). -/
def imageWritten (s : State) : Bool := Memory.writtenBelow s.pix (imageBytes s)

/-- The text region, words 0 to TEXT_LEN-1, is written (R66). -/
def textWritten (s : State) : Bool := Memory.writtenBelow s.txt (textCount s)

/-- The payload TXT[0..n) (R102). -/
def payload (s : State) : List Word := (List.range (textCount s)).map (txtRead s.txt)

end Sys2Proof.Machine
end

