-- ==== Sys2Proof/Machine/Channel.lean ====
section
/-! DEFINITION. The pixel channel bit embedder and extractor (41_channel_codec.md) and their commands. -/

namespace Sys2Proof.Machine

/-- The embed transform `E(v, m)`: bit 1 replaced by its XOR with m, every other bit unchanged (R120). -/
def embedBit (v : Byte) (m : Bool) : Byte :=
  v.extractLsb' 2 6 ++ BitVec.ofBool (v.getLsbD 1 ^^ m) ++ BitVec.ofBool (v.getLsbD 0)

/-- The extract transform `X(v)`: bit 1, inverted, compared with bit 0 (R121). The asymmetry with `embedBit` is
normative (R122). -/
def extractBit (v : Byte) : Bool := (v.getLsbD 1 ^^ true) == v.getLsbD 0

/-- CHAN_EMBED (R125). -/
def execChanEmbed (s : State) : Result :=
  finish (setResult ((embedBit (channelOperand s) (payloadBitOperand s)).setWidth 32) s)

/-- CHAN_EXTRACT (R126). -/
def execChanExtract (s : State) : Result :=
  finish (setResult ((BitVec.ofBool (extractBit (channelOperand s))).setWidth 32) s)

end Sys2Proof.Machine
end

