-- ==== Sys2Proof/Machine/Serializer.lean ====
section
/-! DEFINITION. The message serializer (40_serializer.md) and its command SER_BYTE. -/

namespace Sys2Proof.Machine

/-- `bits8(B)`, most-significant bit first (R101). -/
def bits8 (b : Byte) : List Bool :=
  [b.getLsbD 7, b.getLsbD 6, b.getLsbD 5, b.getLsbD 4, b.getLsbD 3, b.getLsbD 2, b.getLsbD 1, b.getLsbD 0]

/-- SENT, the sentinel `"(end)"` (R100). The code points are PRESUMED (G1; log entry 1). -/
def sent : List Byte := [0x28#8, 0x65#8, 0x6E#8, 0x64#8, 0x29#8]

/-- SENT_BITS, the serialized sentinel (R100). -/
def sentBits : List Bool := sent.flatMap bits8

/-- SENT_BITS as a 40-bit number, first bit = bit 39 (R100). -/
def sentWord : BitVec 40 := 0x28656E6429#40

/-- A code point fits in one byte (R102, R201). -/
def fitsByte (w : Word) : Bool := decide (w.toNat < 256)

/-- The byte of a code point below 256: w[7:0] (R102, R110). -/
def lowByte (w : Word) : Byte := w.extractLsb' 0 8

/-- The serialized stream of a payload of bytes, the sentinel appended (R102). -/
def stream (T : List Byte) : List Bool := (T ++ sent).flatMap bits8

/-- `encode(T)` (R102): `none` is the failure ENCODING. -/
def encodeText (T : List Word) : Option (List Bool) :=
  if T.all fitsByte then some (stream (T.map lowByte)) else none

/-- The byte whose bits are given most-significant first: the sum of R105. -/
def byteOf (b7 b6 b5 b4 b3 b2 b1 b0 : Bool) : Byte :=
  BitVec.ofNat 8 (b7.toNat * 128 + b6.toNat * 64 + b5.toNat * 32 + b4.toNat * 16 +
    b3.toNat * 8 + b2.toNat * 4 + b1.toNat * 2 + b0.toNat)

/-- `decode(D)` (R105), for a bit list whose length is a multiple of 8. -/
def decodeBits : List Bool → List Byte
  | b7 :: b6 :: b5 :: b4 :: b3 :: b2 :: b1 :: b0 :: rest => byteOf b7 b6 b5 b4 b3 b2 b1 b0 :: decodeBits rest
  | _ => []

/-- Truncation to the first 8 * floor(len/8) bits (R106). -/
def truncate8 (D : List Bool) : List Bool := D.take (8 * (D.length / 8))

/-- SER_BYTE: byte j of the serialized stream (R110). CONFIG, then RANGE, then UNINIT on word j, then ENCODING
(R206). SENT[j - n] exists exactly when j < n + 5, so the last arm repeats the RANGE check and adds no case. -/
def execSerByte (s : State) : Result :=
  if configError .serByte s then raise .config s
  else if textCount s + 5 ≤ indexOperand s then raise .range s
  else if indexOperand s < textCount s then
    match Memory.find s.txt (indexOperand s) with
    | none => .fault .uninit
    | some w => if fitsByte w then finish (setResult ((lowByte w).setWidth 32) s) else raise .encoding s
  else
    match sent[indexOperand s - textCount s]? with
    | some b => finish (setResult (b.setWidth 32) s)
    | none => raise .range s

end Sys2Proof.Machine
end

