-- ==== Sys2Proof/Machine/Selector.lean ====
section
/-! DEFINITION. The raster-order pixel selector and the sentinel detector (42_selector_detector.md), and the
commands CAPACITY, PIX_SELECT and SENT_MATCH. -/

namespace Sys2Proof.Machine

/-- The PIX address of channel c of pixel (y, x) in an image W pixels wide with C channels (R61). -/
def pixelAddr (W C y x c : Nat) : Nat := (y * W + x) * C + c

/-- The skip rule on the four channel values of an RGBA pixel: no channel is 0 (R140, R152). -/
def allNonzero (r g b a : Byte) : Bool := r != 0 && g != 0 && b != 0 && a != 0

/-- `proc(y, x)` on a pixel memory (R140): with 3 channels no pixel is skipped. Only C = 3 and C = 4 pass the CONFIG
check, so no other C reaches this. -/
def processed (W C : Nat) (m : List Host.Cell) (y x : Nat) : Bool :=
  if C = 3 then true
  else allNonzero (pixRead m (pixelAddr W C y x 0)) (pixRead m (pixelAddr W C y x 1))
    (pixRead m (pixelAddr W C y x 2)) (pixRead m (pixelAddr W C y x 3))

/-- The pixels (y, x) in raster order (R12, R144). -/
def raster (W H : Nat) : List (Nat × Nat) :=
  (List.range H).flatMap fun y => (List.range W).map fun x => (y, x)

/-- The slots of one pixel: R, G and B if it is processed, none if it is skipped (R141, R144). -/
def pixelSlots (W C : Nat) (m : List Host.Cell) (p : Nat × Nat) : List Nat :=
  if processed W C m p.1 p.2 then
    [pixelAddr W C p.1 p.2 0, pixelAddr W C p.1 p.2 1, pixelAddr W C p.1 p.2 2]
  else []

/-- `Slots` of an image, in raster order (R144). -/
def slotsOf (W H C : Nat) (m : List Host.Cell) : List Nat := (raster W H).flatMap (pixelSlots W C m)

/-- P, the number of processed pixels of an image (R143). -/
def processedCount (W H C : Nat) (m : List Host.Cell) : Nat :=
  (raster W H).countP fun p => processed W C m p.1 p.2

/-- The slots of the image the registers describe. -/
def slots (s : State) : List Nat := slotsOf (imgW s) (imgH s) (imgC s) s.pix

/-- P of the image the registers describe. -/
def procPixels (s : State) : Nat := processedCount (imgW s) (imgH s) (imgC s) s.pix

/-- The payload fits: 8 * (n + 5) <= 3 * P (R147). -/
def payloadFits (s : State) : Bool := decide (8 * (textCount s + 5) ≤ 3 * procPixels s)

/-- The match position: the smallest index at which SENT_BITS occurs in the stream, at any bit offset (R148), counted
from `i`. -/
def firstMatchFrom (i : Nat) : List Bool → Option Nat
  | [] => none
  | b :: r => if sentBits.isPrefixOf (b :: r) then some i else firstMatchFrom (i + 1) r

/-- The match position in a stream (R148). -/
def firstMatch (r : List Bool) : Option Nat := firstMatchFrom 0 r

/-- The streaming detector of R150: the window SW, the count q of bits seen and the match position found. EXTRACT is
written with `firstMatch`; R150 says the two agree. -/
structure Detector where
  sw : BitVec 40
  q : Nat
  pos : Option Nat
  deriving DecidableEq, Repr

/-- SW and q "are cleared at the start of EXTRACT" (R150). -/
def detectorStart : Detector := { sw := 0, q := 0, pos := none }

/-- One recovered bit enters at bit 0 of the window (R150). A detector that has found a match has stopped. -/
def detectorPush (d : Detector) (b : Bool) : Detector :=
  match d.pos with
  | some _ => d
  | none =>
    let sw : BitVec 40 := d.sw.extractLsb' 0 39 ++ BitVec.ofBool b
    { sw := sw, q := d.q + 1
      pos := if 40 ≤ d.q + 1 ∧ sw = sentWord then some (d.q + 1 - 40) else none }

/-- CAPACITY (R151): CONFIG, then UNINIT on the image region (R206); the counts and the fit are results. -/
def execCapacity (s : State) : Result :=
  if configError .capacity s then raise .config s
  else if !imageWritten s then .fault .uninit
  else finish (setResult (if payloadFits s then 1 else 0) (setCounts (procPixels s) (textCount s) s))

/-- PIX_SELECT (R152): the skip rule on one packed pixel; A is ignored when C = 3. -/
def execPixSelect (s : State) : Result :=
  if configError .pixSelect s then raise .config s
  else if imgC s = 3 then finish (setResult 1 s)
  else finish (setResult (if allNonzero (redOperand s) (greenOperand s) (blueOperand s) (alphaOperand s)
    then 1 else 0) s)

/-- SENT_MATCH (R153). -/
def execSentMatch (s : State) : Result :=
  finish (setResult (if windowOperand s = sentWord then 1 else 0) s)

end Sys2Proof.Machine
end

