-- ==== Sys2Proof/Machine/Operations.lean ====
section
/-! DEFINITION. The whole-buffer operations EMBED and EXTRACT (43_operations.md). -/

namespace Sys2Proof.Machine

/-- The write loop of EMBED (R170): slot by slot, one payload bit each, until the payload or the slots end. -/
def embedInto : List Host.Cell → List Nat → List Bool → List Host.Cell
  | m, a :: sl, b :: S => embedInto (Memory.store m a (embedBit (pixRead m a) b)) sl S
  | m, _, _ => m

/-- EMBED (R170). CONFIG, UNINIT on the text region, ENCODING, UNINIT on the image region, CAPACITY (R206). The counts
are written before CAPACITY is raised (R204); no pixel is written before the last check (R171). -/
def execEmbed (s : State) : Result :=
  if configError .embed s then raise .config s
  else if !textWritten s then .fault .uninit
  else
    match encodeText (payload s) with
    | none => raise .encoding s
    | some S =>
      if !imageWritten s then .fault .uninit
      else if !payloadFits s then raise .capacity (setCounts (procPixels s) (textCount s) s)
      else finish { setCounts (procPixels s) (textCount s) s with pix := embedInto s.pix (slots s) S }

/-- The bits recovered from every slot, in slot order (R172). -/
def recovered (s : State) : List Bool := (slots s).map fun a => extractBit (pixRead s.pix a)

/-- What EXTRACT writes (R172): the decoded prefix D0, its length, the match position, the number of bits scanned and
the two flags. -/
def deliver (D0 : List Bool) (pos scanned : Nat) (found : Bool) (s : State) : State :=
  { s with
    txt := writeText s.txt 0 (decodeBits (truncate8 D0))
    textLen := BitVec.ofNat 32 (D0.length / 8)
    sentPos := BitVec.ofNat 32 pos
    bitsScanned := BitVec.ofNat 32 scanned
    status := statusWithFlags found (decide (D0.length % 8 ≠ 0)) s.status }

/-- EXTRACT (R172): the bits before the first match, or, with no match, the whole stream as best-effort text (R173). The
scan stops at the last bit of the match (R149). CONFIG, then UNINIT on the image region (R206). -/
def execExtract (s : State) : Result :=
  if configError .extract s then raise .config s
  else if !imageWritten s then .fault .uninit
  else
    match firstMatch (recovered s) with
    | some p => finish (deliver ((recovered s).take p) p (p + 40) true s)
    | none => finish (deliver (recovered s) 0 (recovered s).length false s)

end Sys2Proof.Machine
end

