-- ==== Sys2Proof/Machine/Dispatch.lean ====
section
/-! DEFINITION. One arm per command: its meaning, the whole completion of the command (R205). -/

namespace Sys2Proof.Machine

def exec (i : Instr) (s : State) : Host.Outcome State Fault Refusal :=
  match i with
  | .embed => Sys2Proof.Machine.execEmbed s
  | .extract => Sys2Proof.Machine.execExtract s
  | .capacity => Sys2Proof.Machine.execCapacity s
  | .serByte => Sys2Proof.Machine.execSerByte s
  | .chanEmbed => Sys2Proof.Machine.execChanEmbed s
  | .chanExtract => Sys2Proof.Machine.execChanExtract s
  | .pixSelect => Sys2Proof.Machine.execPixSelect s
  | .sentMatch => Sys2Proof.Machine.execSentMatch s

end Sys2Proof.Machine
end

