-- ==== Sys2Proof/Machine/Engine.lean ====
section
/-! DEFINITION. The engine's only move, the completion of the accepted command (R205). -/

namespace Sys2Proof.Machine

/-- The completion step (R205): the command word in PEND is decoded now, an illegal one raises ILLEGAL (R203), a legal
one runs. -/
def completion (s : State) : Result :=
  match decode s.pend with
  | .ok i => exec i s
  | .error _ => raise .illegal s

/-- The engine's move: the completion while BUSY = 1; with BUSY = 0 nothing is enabled and nothing changes. -/
def engineMove (s : State) : Result := if isBusy s then completion s else .next s

end Sys2Proof.Machine
end

