-- ==== Sys2Proof/Machine/HostPort.lean ====
section
/-! DEFINITION. The host's ports: registers (R20 to R43, R67), pixel memory and text memory (R68 to R70). -/

namespace Sys2Proof.Machine

/-- The offset of a register (R20). -/
def regOffset : Reg → BitVec 8
  | .cmd => 0x00
  | .status => 0x04
  | .width => 0x08
  | .height => 0x0C
  | .channels => 0x10
  | .textLen => 0x14
  | .opa => 0x18
  | .opb => 0x1C
  | .result => 0x20
  | .procCount => 0x24
  | .capBits => 0x28
  | .reqBits => 0x2C
  | .sentPos => 0x30
  | .bitsScanned => 0x34

/-- The registers in offset order (R20). -/
def allRegs : List Reg :=
  [.cmd, .status, .width, .height, .channels, .textLen, .opa, .opb,
   .result, .procCount, .capBits, .reqBits, .sentPos, .bitsScanned]

/-- The register at an offset; none at the reserved offsets 0x38 to 0xFF (R42). -/
def regAt (offset : BitVec 8) : Option Reg := allRegs.find? fun r => regOffset r == offset

/-- A host register access is a whole aligned 32-bit word: 4 bytes at an offset that is a multiple of 4
(R67, R72). -/
def wholeAligned (offset : BitVec 8) (bytes : Nat) : Bool :=
  decide (bytes = 4) && decide (offset.toNat % 4 = 0)

/-- The 32 bits a register reads as while BUSY = 0; reserved bits and CMD read as 0 (R20, R23, R29 to R32). -/
def readReg (r : Reg) (s : State) : Word :=
  match r with
  | .cmd => 0
  | .status => s.status.setWidth 32
  | .width => s.width.setWidth 32
  | .height => s.height.setWidth 32
  | .channels => s.channels.setWidth 32
  | .textLen => s.textLen
  | .opa => s.opa
  | .opb => s.opb
  | .result => s.result
  | .procCount => s.procCount
  | .capBits => s.capBits
  | .reqBits => s.reqBits
  | .sentPos => s.sentPos
  | .bitsScanned => s.bitsScanned

/-- The registers whose reads are unspecified while BUSY = 1 (R43). -/
def unspecifiedWhileBusy : Reg → Bool
  | .textLen | .result | .procCount | .capBits | .reqBits | .sentPos | .bitsScanned => true
  | .cmd | .status | .width | .height | .channels | .opa | .opb => false

/-- A host write while BUSY = 0: CMD accepts a command (R23), an input register stores its implemented bits (R30 to R35),
a read-only register ignores it (R20, R29). -/
def writeReg (r : Reg) (v : Word) (s : State) : State :=
  match r with
  | .cmd => accept v s
  | .width => { s with width := v.setWidth 15 }
  | .height => { s with height := v.setWidth 15 }
  | .channels => { s with channels := v.setWidth 3 }
  | .textLen => { s with textLen := v }
  | .opa => { s with opa := v }
  | .opb => { s with opb := v }
  | .status | .result | .procCount | .capBits | .reqBits | .sentPos | .bitsScanned => s

/-- A read returns `v` to the host. -/
def returnValue (v : Word) (s : State) : State := { s with lastRead := some v }

/-- A read returns an unspecified 32-bit value, drawn freshly (R43, R68). -/
def returnFreeWord (s : State) : State :=
  { s with lastRead := some (Config.freeWord s.freeCount), freeCount := s.freeCount + 1 }

/-- A read returns an unspecified 8-bit value, drawn freshly (R68). -/
def returnFreeByte (s : State) : State :=
  { s with lastRead := some ((Config.freeByte s.freeCount).setWidth 32), freeCount := s.freeCount + 1 }

/-- A host register read (R67): refused unless it is a whole aligned word; a reserved offset reads 0 (R42); a result
register or TEXT_LEN reads an unspecified value while BUSY = 1 (R43). -/
def hostRegRead (offset : BitVec 8) (bytes : Nat) (s : State) : Result :=
  if wholeAligned offset bytes then
    match regAt offset with
    | none => .next (returnValue 0 s)
    | some r =>
      if isBusy s && unspecifiedWhileBusy r then .next (returnFreeWord s)
      else .next (returnValue (readReg r s) s)
  else .refused .partialRegisterAccess

/-- A host register write (R67): refused unless it is a whole aligned word; ignored at a reserved offset (R42) and while
BUSY = 1 (R43). -/
def hostRegWrite (offset : BitVec 8) (bytes : Nat) (v : Word) (s : State) : Result :=
  if wholeAligned offset bytes then
    match regAt offset with
    | none => .next s
    | some r => if isBusy s then .next s else .next (writeReg r v s)
  else .refused .partialRegisterAccess

/-- A host read of one pixel byte (R68, R70). -/
def hostPixRead (a : Nat) (s : State) : Result :=
  if isBusy s then .refused .memoryAccessWhileBusy
  else if a < pixSize s then
    match Memory.find s.pix a with
    | some v => .next (returnValue (v.setWidth 32) s)
    | none => .next (returnFreeByte s)
  else .next (returnValue 0 s)

/-- A host write of one pixel byte (R68, R70). -/
def hostPixWrite (a : Nat) (v : Byte) (s : State) : Result :=
  if isBusy s then .refused .memoryAccessWhileBusy
  else if a < pixSize s then .next { s with pix := Memory.store s.pix a v }
  else .next s

/-- A host read of one text word (R68, R70). -/
def hostTxtRead (j : Nat) (s : State) : Result :=
  if isBusy s then .refused .memoryAccessWhileBusy
  else if j < textSize s then
    match Memory.find s.txt j with
    | some v => .next (returnValue v s)
    | none => .next (returnFreeWord s)
  else .next (returnValue 0 s)

/-- A host write of one text word (R68, R70). -/
def hostTxtWrite (j : Nat) (v : Word) (s : State) : Result :=
  if isBusy s then .refused .memoryAccessWhileBusy
  else if j < textSize s then .next { s with txt := Memory.store s.txt j v }
  else .next s

/-- One poll of `WAIT` (R95): STATUS is read; unless DONE = 1 the loop goes round again. -/
def hostWait (s : State) : Result :=
  if doneBit s.status then .next (returnValue (readReg .status s) s)
  else .next { returnValue (readReg .status s) s with host := .wait :: s.host }

/-- One host move. -/
def hostOp (op : HostOp) (s : State) : Result :=
  match op with
  | .regWrite offset bytes v => hostRegWrite offset bytes v s
  | .regRead offset bytes => hostRegRead offset bytes s
  | .pixWrite a v => hostPixWrite a v s
  | .pixRead a => hostPixRead a s
  | .txtWrite j v => hostTxtWrite j v s
  | .txtRead j => hostTxtRead j s
  | .wait => hostWait s

/-- The host makes its next move; with none left nothing changes. -/
def hostMove (s : State) : Result :=
  match s.host with
  | [] => .next s
  | op :: rest => hostOp op { s with host := rest }

end Sys2Proof.Machine
end

