-- ==== Sys2Proof/Machine/HostProgram.lean ====
section
/-! DEFINITION. Host programs: the notation of R94, the pseudo-operations of R95 and their expansion to port accesses. -/

namespace Sys2Proof.Machine

/-- A line of a host program (R94, R95). -/
inductive HostLine where
  | WR (r : Reg) (value : Word)
  | RD (r : Reg)
  | PW (addr : Nat) (value : Byte)
  | PR (addr : Nat)
  | TW (idx : Nat) (value : Word)
  | TR (idx : Nat)
  | CMD (i : Instr)
  | WAIT
  | RUN (i : Instr)
  | LOADIMG (w h c : Word) (bytes : List Byte)
  | LOADTXT (chars : List Char)
  | SETOP (a b : Word)
  deriving DecidableEq, Repr

/-- `WR <reg>, <value>`: a register port write at the register's offset (R94). -/
def writeOp (r : Reg) (v : Word) : HostOp := .regWrite (regOffset r) 4 v

/-- `CMD <mnemonic>`: the command word written to CMD (R94). -/
def commandOp (i : Instr) : HostOp := writeOp .cmd (encode i)

/-- `PW a, b0; PW a+1, b1; …`: one byte after another from an address (R95). -/
def pixLoad (a : Nat) : List Byte → List HostOp
  | [] => []
  | b :: bs => .pixWrite a b :: pixLoad (a + 1) bs

/-- `TW j, cp(c0); TW j+1, cp(c1); …`: one code point after another from an index (R95). -/
def txtLoad (j : Nat) : List Char → List HostOp
  | [] => []
  | c :: cs => .txtWrite j (BitVec.ofNat 32 c.toNat) :: txtLoad (j + 1) cs

/-- The port accesses of a line (R94, R95). R95 gives LOADIMG exactly W*H*C bytes and says nothing of a list of another
length: one PW is made per listed byte, whatever W, H and C are. DESIGN CHOICE (log entry 24). -/
def expand : HostLine → List HostOp
  | .WR r v => [writeOp r v]
  | .RD r => [.regRead (regOffset r) 4]
  | .PW a v => [.pixWrite a v]
  | .PR a => [.pixRead a]
  | .TW j v => [.txtWrite j v]
  | .TR j => [.txtRead j]
  | .CMD i => [commandOp i]
  | .WAIT => [.wait]
  | .RUN i => [commandOp i, .wait]
  | .LOADIMG w h c bytes => [writeOp .width w, writeOp .height h, writeOp .channels c] ++ pixLoad 0 bytes
  | .LOADTXT chars => txtLoad 0 chars ++ [writeOp .textLen (BitVec.ofNat 32 chars.length)]
  | .SETOP a b => [writeOp .opa a, writeOp .opb b]

/-- A state whose host runs a program after the moves it already has. -/
def State.withProgram (s : State) (lines : List HostLine) : State :=
  { s with host := s.host ++ lines.flatMap expand }

end Sys2Proof.Machine
end

