-- ==== Sys2Proof/Machine/Step.lean ====
section
/-! DEFINITION. One step of the machine: one move of one agent (R14, R74). -/

namespace Sys2Proof.Machine

/-- One step: the agent that `turns` names moves. When `turns` names none, the engine completes a command that is running
and otherwise the host moves, so that an accepted command always completes (R241; log entry 7). -/
def step (s : State) : Host.Outcome State Fault Refusal :=
  match s.turns with
  | [] => if isBusy s then engineMove s else hostMove s
  | .host :: ts => hostMove { s with turns := ts }
  | .engine :: ts => engineMove { s with turns := ts }
  | .reset :: ts => .next (platformReset { s with turns := ts })

/-- `s` with the command word `w` (of `nbits` bits, 0 above them) accepted and the next move the engine's: the very next
step is the completion of that command (R23, R205; log entry 8). -/
def State.withFetchWord (s : State) (nbits w : Nat) : State :=
  { accept (BitVec.ofNat 32 (w % 2 ^ nbits)) s with turns := .engine :: s.turns }

end Sys2Proof.Machine
end

