-- ==== Sys2Proof/Safety.lean ====
section
/-! DEFINITION. What counts as a safe run, in the terms statements use: the fault set and the refusal mark of a run
(R47, R212, R213) and the invariant of the machine's states. -/

namespace Sys2Proof.Machine

/-- The fault set after `k` steps from `s` (R47(b), R212). A fault ends the run, so the set holds at most that fault. -/
def faultSet (k : Nat) (s : State) : List Fault :=
  match Host.Core.run Sys2Proof.core k s with
  | .next _ => []
  | .fault f => [f]
  | .refused _ => []

/-- The refusal mark after `k` steps from `s` (R47(c), R213). A refusal ends the run. -/
def refusalMark (k : Nat) (s : State) : Bool :=
  match Host.Core.run Sys2Proof.core k s with
  | .next _ => false
  | .fault _ => false
  | .refused _ => true

/-- `k` steps from `s` end in a state: neither a fault nor a refusal on the way. -/
def runsTo (k : Nat) (s t : State) : Prop := Host.Core.run Sys2Proof.core k s = .next t

/-- STATUS has one of the three shapes a run gives it: as after reset (R230), as at acceptance (R23), or as after a
completion (R205), with an error code of R200 and the EXTRACT flags only beside the code NONE (R26, R27). -/
def statusLegal (w : BitVec 8) : Prop :=
  w = 0 ∨ w = statusAccepted ∨
    (busyBit w = false ∧ doneBit w = true ∧ (∃ e, errField w = errCode e) ∧
      ((sfoundBit w = true ∨ truncBit w = true) → errField w = errCode .none))

/-- The invariant of the machine. -/
structure Inv (s : State) : Prop where
  /-- Pixel memory is in canonical form. -/
  pixWf : Memory.wf s.pix
  /-- Text memory is in canonical form. -/
  txtWf : Memory.wf s.txt
  /-- Only addresses 0 to PIX_BYTES-1 exist (R60). -/
  pixInside : ∀ c ∈ s.pix, c.1 < pixSize s
  /-- Only indices 0 to TEXT_DEPTH-1 exist (R60). -/
  txtInside : ∀ c ∈ s.txt, c.1 < textSize s
  /-- BUSY and DONE never hold together, no code above 5 is produced (R25, R28). -/
  statusOk : statusLegal s.status
  /-- CAP_BITS is 3 * PROC_COUNT, exactly (R38). -/
  capacityOk : s.capBits.toNat = 3 * s.procCount.toNat
  /-- SENT_POS is 0 or the start of the 40 bits that end the scan (R40, R41). -/
  scanOk : s.sentPos.toNat = 0 ∨ s.sentPos.toNat + 40 = s.bitsScanned.toNat

end Sys2Proof.Machine
end

