-- ==== Sys2Proof/Certificates/Slice0/Obligations.lean ====
section
/-! DEFINITION. The statements for the provers. Each docstring names the rule of spec/ it formalises; OBLIGATIONS.json lists
them. First the words they are written in. -/

namespace Sys2Proof.Claims

open Sys2Proof.Machine

/-! ## Vocabulary -/

/-- The completion writes of R205 with error `e`: BUSY = 0, DONE = 1, ERR = the code of `e`, SFOUND and TRUNC kept. -/
def Completed (e : ErrCode) (s t : State) : Prop :=
  busyBit t.status = false ∧ doneBit t.status = true ∧ errField t.status = errCode e ∧
    sfoundBit t.status = sfoundBit s.status ∧ truncBit t.status = truncBit s.status

/-- WIDTH, HEIGHT, CHANNELS, OPA, OPB and PEND, and the model's own fields (the build, the host, the order of moves), are
unchanged. -/
def KeepsInputs (s t : State) : Prop :=
  t.width = s.width ∧ t.height = s.height ∧ t.channels = s.channels ∧ t.opa = s.opa ∧ t.opb = s.opb ∧ t.pend = s.pend ∧
    t.params = s.params ∧ t.host = s.host ∧ t.turns = s.turns ∧ t.lastRead = s.lastRead ∧ t.freeCount = s.freeCount

/-- Every pixel byte reads as before, written or unwritten. -/
def KeepsPix (s t : State) : Prop := ∀ a, Memory.find t.pix a = Memory.find s.pix a

/-- Every text word reads as before, written or unwritten. -/
def KeepsTxt (s t : State) : Prop := ∀ j, Memory.find t.txt j = Memory.find s.txt j

/-- PROC_COUNT, CAP_BITS and REQ_BITS are unchanged. -/
def KeepsCounts (s t : State) : Prop :=
  t.procCount = s.procCount ∧ t.capBits = s.capBits ∧ t.reqBits = s.reqBits

/-- SENT_POS and BITS_SCANNED are unchanged. -/
def KeepsScan (s t : State) : Prop := t.sentPos = s.sentPos ∧ t.bitsScanned = s.bitsScanned

/-- Nothing but STATUS and RESULT changes. -/
def KeepsAllButResult (s t : State) : Prop :=
  KeepsInputs s t ∧ t.textLen = s.textLen ∧ KeepsPix s t ∧ KeepsTxt s t ∧ KeepsCounts s t ∧ KeepsScan s t

/-- Nothing but STATUS changes. -/
def KeepsAllButStatus (s t : State) : Prop := KeepsAllButResult s t ∧ t.result = s.result

/-- The pixel memory holds W*H*C bytes for an image of 3 or 4 channels (R202, first two lines). -/
def ImageConfigured (s : State) : Prop :=
  (s.channels.toNat = 3 ∨ s.channels.toNat = 4) ∧
    s.width.toNat * s.height.toNat * s.channels.toNat ≤ s.params.pixBytes.val

/-- Every byte of the image region is written (R66). -/
def ImageLoaded (s : State) : Prop :=
  ∀ a, a < s.width.toNat * s.height.toNat * s.channels.toNat → ∃ v, Memory.find s.pix a = some v

/-- TEXT_LEN words fit in text memory (R202, third line). -/
def TextConfigured (s : State) : Prop := s.textLen.toNat ≤ s.params.textDepth.val

/-- Every word of the text region is written (R66). -/
def TextLoaded (s : State) : Prop := ∀ j, j < s.textLen.toNat → ∃ w, Memory.find s.txt j = some w

/-- Every code point of the payload fits in one byte (R201). -/
def TextFits (s : State) : Prop := ∀ j w, j < s.textLen.toNat → Memory.find s.txt j = some w → w.toNat < 256

/-- `proc(y, x)` (R140), on the bytes at the addresses of R61. -/
abbrev PixelProcessed (s : State) (y x : Nat) : Prop :=
  s.channels.toNat = 3 ∨
    ∀ c, c < 4 → pixRead s.pix ((y * s.width.toNat + x) * s.channels.toNat + c) ≠ 0

/-- P, the number of pixels (y, x) of the image with `proc(y, x)` (R143). -/
def pixelsProcessed (s : State) : Nat :=
  ((Finset.range s.height.toNat ×ˢ Finset.range s.width.toNat).filter fun p => PixelProcessed s p.1 p.2).card

/-- Bit k of a bit list, as a number; 0 past its end. -/
def bitAt (D : List Bool) (k : Nat) : Nat := (D[k]?.getD false).toNat

/-- The sum of R105: the byte whose bits, most significant first, are bits 8j to 8j+7 of D. -/
def byteSum (D : List Bool) (j : Nat) : Nat :=
  ∑ i ∈ Finset.range 8, bitAt D (8 * j + i) * 2 ^ (7 - i)

/-- SENT_BITS stands in `r` at index `p` (R148). -/
def SentinelAt (r : List Bool) (p : Nat) : Prop := (r.drop p).take 40 = sentBits

/-- The condition under which `check_config(i)` raises CONFIG (R202), line by line. -/
def ConfigBad (i : Instr) (s : State) : Prop :=
  (i ∈ [Instr.embed, .extract, .capacity, .pixSelect] ∧ s.channels.toNat ≠ 3 ∧ s.channels.toNat ≠ 4) ∨
  (i ∈ [Instr.embed, .extract, .capacity] ∧
    s.params.pixBytes.val < s.width.toNat * s.height.toNat * s.channels.toNat) ∨
  (i ∈ [Instr.embed, .capacity, .serByte] ∧ s.params.textDepth.val < s.textLen.toNat) ∨
  (i = .extract ∧ s.params.textDepth.val < 3 * s.width.toNat * s.height.toNat / 8)

/-- The host has the next move (log entry 7). -/
def HostMovesNext (s : State) : Prop :=
  (∃ ts, s.turns = .host :: ts) ∨ (s.turns = [] ∧ busyBit s.status = false)

/-- The engine has the next move, the completion of a command (R205; log entry 7). -/
def EngineMovesNext (s : State) : Prop :=
  busyBit s.status = true ∧ (s.turns = [] ∨ ∃ ts, s.turns = .engine :: ts)

/-- The command in PEND reaches, in its order (R206), a read point of R66 with an unwritten location in the region. -/
def AtReadPoint (s : State) : Prop :=
  (s.pend = encode .embed ∧ ¬ ConfigBad .embed s ∧ (¬ TextLoaded s ∨ (TextFits s ∧ ¬ ImageLoaded s))) ∨
  (s.pend = encode .extract ∧ ¬ ConfigBad .extract s ∧ ¬ ImageLoaded s) ∨
  (s.pend = encode .capacity ∧ ¬ ConfigBad .capacity s ∧ ¬ ImageLoaded s) ∨
  (s.pend = encode .serByte ∧ ¬ ConfigBad .serByte s ∧ s.opa.toNat < s.textLen.toNat ∧
    Memory.find s.txt s.opa.toNat = none)

/-- A PIX or TXT port access (R68). -/
def MemoryPortOp : HostOp → Prop
  | .pixWrite _ _ | .pixRead _ | .txtWrite _ _ | .txtRead _ => True
  | .regWrite _ _ _ | .regRead _ _ | .wait => False

/-- A register port access of `bytes` bytes at `offset` (R67). -/
def RegisterPortOp (op : HostOp) (offset : BitVec 8) (bytes : Nat) : Prop :=
  op = .regRead offset bytes ∨ ∃ v, op = .regWrite offset bytes v

/-- The host's next access is one R213 gives no meaning: a register access that is not a whole aligned word, or a PIX or TXT
access while BUSY = 1. -/
def HostAccessWithoutMeaning (s : State) : Prop :=
  ∃ op rest, s.host = op :: rest ∧
    ((∃ offset bytes, RegisterPortOp op offset bytes ∧ ¬ (bytes = 4 ∧ offset.toNat % 4 = 0)) ∨
     (busyBit s.status = true ∧ MemoryPortOp op))

end Sys2Proof.Claims

open Sys2Proof
open Sys2Proof.Machine
open Sys2Proof.Claims

/-! ## Encoding -/

/-- R91: the eight command words, written out bit by bit, decode to their commands. -/
def Obligations.CommandWordsDecodeAsListed : Prop :=
  decode 0b00000000000000000000000000000001#32 = .ok .embed ∧
  decode 0b00000000000000000000000000000010#32 = .ok .extract ∧
  decode 0b00000000000000000000000000000011#32 = .ok .capacity ∧
  decode 0b00000000000000000000000000000100#32 = .ok .serByte ∧
  decode 0b00000000000000000000000000000101#32 = .ok .chanEmbed ∧
  decode 0b00000000000000000000000000000110#32 = .ok .chanExtract ∧
  decode 0b00000000000000000000000000000111#32 = .ok .pixSelect ∧
  decode 0b00000000000000000000000000001000#32 = .ok .sentMatch

/-- R91: decode and encode agree in both directions; a word is legal exactly when RSVD = 0 and OPCODE is listed, and the
legal words are exactly 1 to 8. -/
def Obligations.DecodeAndEncodeAgree : Prop :=
  (∀ (w : Word) (i : Instr), decode w = .ok i ↔ w = encode i) ∧
  (∀ w : Word, legalWord w = true ↔ ∃ i, decode w = .ok i) ∧
  (∀ w : Word, legalWord w = true ↔ (w.extractLsb' 8 24 = 0 ∧ w.extractLsb' 0 8 ∈
    [0x01#8, 0x02#8, 0x03#8, 0x04#8, 0x05#8, 0x06#8, 0x07#8, 0x08#8])) ∧
  (∀ w : Word, legalWord w = true ↔ (1 ≤ w.toNat ∧ w.toNat ≤ 8)) ∧
  encode .embed = 0x00000001#32 ∧ encode .extract = 0x00000002#32 ∧ encode .capacity = 0x00000003#32 ∧
  encode .serByte = 0x00000004#32 ∧ encode .chanEmbed = 0x00000005#32 ∧ encode .chanExtract = 0x00000006#32 ∧
  encode .pixSelect = 0x00000007#32 ∧ encode .sentMatch = 0x00000008#32

/-- R203: the completion of a word with RSVD not 0 or OPCODE not in 0x01 to 0x08 raises ILLEGAL and changes nothing but
STATUS. -/
def Obligations.IllegalWordRaisesIllegal : Prop :=
  ∀ s : State,
    (s.pend.extractLsb' 8 24 ≠ 0 ∨ (s.pend.extractLsb' 0 8).toNat < 1 ∨ 8 < (s.pend.extractLsb' 0 8).toNat) →
    ∃ t, completion s = .next t ∧ Completed .illegal s t ∧ KeepsAllButStatus s t

/-! ## Steps, acceptance and completion -/

/-- A step is one move of one agent, and an engine move runs the decoded command. With BUSY = 1 and the engine to move (named
by `turns`, or by default with none named), the step is `exec` of the command PEND decodes to; with the host to move it is the
host's move; a reset turn applies the reset; and the word `withFetchWord` places is the one that runs. Who moves when is the
model's choice, log entries 7 and 8. -/
def Obligations.StepRunsTheAcceptedCommand : Prop :=
  (∀ (s : State) (i : Instr), busyBit s.status = true → decode s.pend = .ok i →
    (s.turns = [] → step s = exec i s) ∧
    (∀ ts, s.turns = .engine :: ts → step s = exec i { s with turns := ts })) ∧
  (∀ s : State, s.turns = [] → busyBit s.status = false → step s = hostMove s) ∧
  (∀ (s : State) (ts : List Turn), s.turns = .host :: ts → step s = hostMove { s with turns := ts }) ∧
  (∀ (s : State) (ts : List Turn), s.turns = .reset :: ts → step s = .next (platformReset { s with turns := ts })) ∧
  (∀ (s : State) (w : Word), step (s.withFetchWord 32 w.toNat) =
    completion { s with pend := w, status := 1#8 })

/-- R23: a write to CMD with BUSY = 0 latches the word, legal or not, and sets STATUS to 0x00000001; with BUSY = 1 it is
ignored; CMD reads 0; and an accepted command's next engine move is its completion. -/
def Obligations.AcceptanceLatchesTheWord : Prop :=
  (∀ (s : State) (w : Word), busyBit s.status = false →
    ∃ t, hostRegWrite 0x00 4 w s = .next t ∧ t = { s with pend := w, status := t.status } ∧
      readReg .status t = 0x00000001#32 ∧ engineMove t = completion t) ∧
  (∀ (s : State) (w : Word), busyBit s.status = true → hostRegWrite 0x00 4 w s = .next s) ∧
  (∀ s : State, ∃ t, hostRegRead 0x00 4 s = .next t ∧ t = { s with lastRead := some 0x00000000#32 })

/-- R205: the completion runs the rule of the latched opcode or raises ILLEGAL; a completed command has BUSY = 0 and
DONE = 1, and SFOUND and TRUNC change only in EXTRACT. -/
def Obligations.CompletionWritesStatus : Prop :=
  (∀ s : State, busyBit s.status = true → engineMove s = completion s) ∧
  (∀ (s : State) (i : Instr), decode s.pend = .ok i → completion s = exec i s) ∧
  (∀ (s t : State), completion s = .next t →
    busyBit t.status = false ∧ doneBit t.status = true ∧ (∃ e, errField t.status = errCode e) ∧
    (legalWord s.pend = false → errField t.status = errCode .illegal) ∧
    (s.pend ≠ encode .extract → sfoundBit t.status = sfoundBit s.status ∧ truncBit t.status = truncBit s.status))

/-- R43: while BUSY = 1 every register write is ignored, STATUS and CMD read their values, and the result registers and
TEXT_LEN read a freshly drawn free value (a statement about any such value). That WIDTH, HEIGHT, CHANNELS, OPA and OPB, which
the engine never writes, read their values too is an inference from R43 and R69, and the count of free values drawn is the
model's form of a fresh value: log entry 3. -/
def Obligations.RegisterAccessWhileBusy : Prop :=
  ∀ s : State, busyBit s.status = true →
    (∀ (r : Reg) (v : Word), hostRegWrite (regOffset r) 4 v s = .next s) ∧
    (∀ r : Reg, r ∈ [Reg.status, .cmd, .width, .height, .channels, .opa, .opb] →
      hostRegRead (regOffset r) 4 s = .next { s with lastRead := some (readReg r s) }) ∧
    (∀ r : Reg, r ∈ [Reg.result, .procCount, .capBits, .reqBits, .sentPos, .bitsScanned, .textLen] →
      hostRegRead (regOffset r) 4 s =
        .next { s with lastRead := some (Config.freeWord s.freeCount), freeCount := s.freeCount + 1 })

/-- R24, R43, R70: no move of the host changes a running command's state: while BUSY = 1 a host move that answers a next
state leaves STATUS, PEND, every register and both memories as they are. -/
def Obligations.HostCannotDisturbARunningCommand : Prop :=
  ∀ s t : State, busyBit s.status = true → hostMove s = .next t →
    t = { s with host := t.host, lastRead := t.lastRead, freeCount := t.freeCount } ∧ s.freeCount ≤ t.freeCount

/-! ## Reset and the invariant -/

/-- R230: after power-on of any build, and after a reset at any time, every register reads 0 and PEND is 0, and an accepted
command is abandoned: the engine has nothing to complete. -/
def Obligations.ResetClearsEveryRegister : Prop :=
  (∀ (p : Params) (r : Reg), readReg r (State.powerOn p) = 0 ∧ (State.powerOn p).pend = 0) ∧
  (∀ (s : State) (r : Reg), readReg r (platformReset s) = 0 ∧ (platformReset s).pend = 0 ∧
    engineMove (platformReset s) = .next (platformReset s))

/-- R231: power-on leaves every location unwritten; a reset at another time leaves memory as it was, but with BUSY = 1 the
image region and the whole of text memory become unwritten. -/
def Obligations.MemoryAfterReset : Prop :=
  (∀ (p : Params) (a : Nat), Memory.find (State.powerOn p).pix a = none ∧ Memory.find (State.powerOn p).txt a = none) ∧
  (∀ s : State, busyBit s.status = false → KeepsPix s (platformReset s) ∧ KeepsTxt s (platformReset s)) ∧
  (∀ (s : State) (a : Nat), busyBit s.status = true →
    Memory.find (platformReset s).pix a =
      (if a < s.width.toNat * s.height.toNat * s.channels.toNat then none else Memory.find s.pix a) ∧
    Memory.find (platformReset s).txt a = (if a < s.params.textDepth.val then none else Memory.find s.txt a))

/-- The invariant holds after power-on of every build. -/
def Obligations.InvariantHoldsAfterPowerOn : Prop :=
  (∀ p : Params, Inv (State.powerOn p)) ∧ Inv State.reset

/-- Every step keeps the invariant: memories canonical and inside their spaces, STATUS legal (BUSY and DONE never together, no
code above 5), CAP_BITS = 3 * PROC_COUNT, SENT_POS at 0 or 40 before BITS_SCANNED; and no step changes the build. -/
def Obligations.EveryStepKeepsTheInvariant : Prop :=
  ∀ s t : State, Inv s → step s = .next t → Inv t ∧ t.params = s.params

/-! ## Message serializer -/

/-- R100 and the values of G1 (log entry 1): SENT_BITS is the serialized sentinel, the 40-bit number 0x28656E6429 with its
first bit at bit 39, and it overlaps itself only at a shift of 37 (R150). -/
def Obligations.SentinelPattern : Prop :=
  sent = [0x28#8, 0x65#8, 0x6E#8, 0x64#8, 0x29#8] ∧ sentBits.length = 40 ∧
  (∀ k, k < 40 → sentBits[k]? = some ((0x28656E6429#40).getLsbD (39 - k))) ∧
  (∀ d, d < 40 → 0 < d → (sentBits.drop d = sentBits.take (40 - d) ↔ d = 37))

/-- R102: encode fails exactly when a code point is 256 or more; otherwise bit k of the stream is bit 7 - (k mod 8) of byte
floor(k/8) of the payload followed by the sentinel. -/
def Obligations.EncodedStreamBits : Prop :=
  ∀ T : List Word,
    (encodeText T = none ↔ ∃ w ∈ T, 256 ≤ w.toNat) ∧
    ∀ S, encodeText T = some S → S.length = 8 * (T.length + 5) ∧
      ∀ k, k < 8 * (T.length + 5) →
        (∀ w, T[k / 8]? = some w → S[k]? = some (w.getLsbD (7 - k % 8))) ∧
        (T.length ≤ k / 8 → ∃ b, sent[k / 8 - T.length]? = some b ∧ S[k]? = some (b.getLsbD (7 - k % 8)))

/-- R103: the stream is 8 * (n + 5) bits long, a multiple of 8, and that length is what CAPACITY writes to REQ_BITS; the
stream of the empty payload is SENT_BITS. -/
def Obligations.StreamLengthIsReqBits : Prop :=
  (∀ T S, encodeText T = some S → S.length = 8 * (T.length + 5) ∧ S.length % 8 = 0) ∧
  encodeText [] = some sentBits ∧ sentBits.length = 40 ∧
  (∀ (s t : State) (S : List Bool), exec .capacity s = .next t → errField t.status = errCode .none →
    encodeText (payload s) = some S → t.reqBits.toNat = S.length)

/-- R105: decode gives one byte per 8 bits, each the sum of its bits, most significant first. -/
def Obligations.DecodeIsTheByteSum : Prop :=
  ∀ D : List Bool, D.length % 8 = 0 →
    (decodeBits D).length = D.length / 8 ∧
    ∀ j, j < D.length / 8 → ((decodeBits D)[j]?).map BitVec.toNat = some (byteSum D j)

/-- The codec inverse law (R107, marked derived by the spec). -/
def Obligations.DecodeInvertsEncode : Prop :=
  ∀ (T : List Word) (S : List Bool), encodeText T = some S →
    (decodeBits (S.take (8 * T.length))).map (fun b => b.setWidth 32) = T ∧
    (decodeBits S).map (fun b => b.setWidth 32) = T ++ sent.map (fun b => b.setWidth 32)

/-- R110: SER_BYTE, every case: CONFIG, RANGE, UNINIT on word j, ENCODING, the payload byte, the sentinel byte. -/
def Obligations.SerByteReadsByteOfTheStream : Prop :=
  ∀ s : State,
    (s.params.textDepth.val < s.textLen.toNat →
      ∃ t, exec .serByte s = .next t ∧ Completed .config s t ∧ KeepsAllButStatus s t) ∧
    (TextConfigured s → s.textLen.toNat + 5 ≤ s.opa.toNat →
      ∃ t, exec .serByte s = .next t ∧ Completed .range s t ∧ KeepsAllButStatus s t) ∧
    (TextConfigured s → s.opa.toNat < s.textLen.toNat → Memory.find s.txt s.opa.toNat = none →
      exec .serByte s = .fault .uninit) ∧
    (∀ w, TextConfigured s → s.opa.toNat < s.textLen.toNat → Memory.find s.txt s.opa.toNat = some w → 256 ≤ w.toNat →
      ∃ t, exec .serByte s = .next t ∧ Completed .encoding s t ∧ KeepsAllButStatus s t) ∧
    (∀ w, TextConfigured s → s.opa.toNat < s.textLen.toNat → Memory.find s.txt s.opa.toNat = some w → w.toNat < 256 →
      ∃ t, exec .serByte s = .next t ∧ Completed .none s t ∧ t.result = w ∧ KeepsAllButResult s t) ∧
    (∀ b, TextConfigured s → s.textLen.toNat ≤ s.opa.toNat → sent[s.opa.toNat - s.textLen.toNat]? = some b →
      ∃ t, exec .serByte s = .next t ∧ Completed .none s t ∧ t.result = b.setWidth 32 ∧ KeepsAllButResult s t)

/-- Stream bit k is bit 7 - (k mod 8) of SER_BYTE's result for j = floor(k/8) (a sentence of R110, marked derived by the
spec). -/
def Obligations.StreamBitsAreSerByteBits : Prop :=
  ∀ (s : State) (S : List Bool) (k : Nat), TextConfigured s → TextLoaded s → encodeText (payload s) = some S →
    k < 8 * (s.textLen.toNat + 5) →
    ∃ t, exec .serByte { s with opa := BitVec.ofNat 32 (k / 8) } = .next t ∧ errField t.status = errCode .none ∧
      S[k]? = some (t.result.getLsbD (7 - k % 8))

/-! ## Channel embedder and extractor -/

/-- R125, R120: CHAN_EMBED writes to RESULT the low byte of OPA with bit 1 XORed with OPB[0]; bits 31 to 8 are 0, and the
operands' other bits do not matter. -/
def Obligations.ChanEmbedChangesBitOneOnly : Prop :=
  ∀ s : State, ∃ t, exec .chanEmbed s = .next t ∧ Completed .none s t ∧ KeepsAllButResult s t ∧
    ∀ i, t.result.getLsbD i =
      (if i = 1 then s.opa.getLsbD 1 ^^ s.opb.getLsbD 0 else decide (i < 8) && s.opa.getLsbD i)

/-- R126, R121: CHAN_EXTRACT writes 1 to RESULT when bit 1 of OPA, inverted, equals bit 0, and otherwise 0. -/
def Obligations.ChanExtractComparesTheLowBits : Prop :=
  ∀ s : State, ∃ t, exec .chanExtract s = .next t ∧ Completed .none s t ∧ KeepsAllButResult s t ∧
    t.result = if (!s.opa.getLsbD 1) = s.opa.getLsbD 0 then 1 else 0

/-- The composition law (R123, marked derived by the spec): X(E(v, m)) = m ^ v[1] ^ v[0], so the bit comes back exactly when
v mod 4 is 0 or 3. -/
def Obligations.ChannelCompositionLaw : Prop :=
  ∀ (v : Byte) (m : Bool),
    extractBit (embedBit v m) = (m ^^ v.getLsbD 1 ^^ v.getLsbD 0) ∧
    (extractBit (embedBit v m) = m ↔ (v.toNat % 4 = 0 ∨ v.toNat % 4 = 3))

/-- The zeroing corner (R124, marked derived by the spec): of the values other than 0, E sends to 0 exactly v = 2 with m = 1.
R124's first sentence is read with its "With v not 0": E(0, 0) = 0 as well. -/
def Obligations.ZeroingCorner : Prop :=
  ∀ (v : Byte) (m : Bool), v ≠ 0 → (embedBit v m = 0 ↔ (v = 2 ∧ m = true))

/-! ## Pixel selector and sentinel detector -/

/-- R152: PIX_SELECT. -/
def Obligations.PixSelectEvaluatesTheSkipRule : Prop :=
  ∀ s : State,
    (s.channels.toNat ≠ 3 → s.channels.toNat ≠ 4 →
      ∃ t, exec .pixSelect s = .next t ∧ Completed .config s t ∧ KeepsAllButStatus s t) ∧
    (s.channels.toNat = 3 →
      ∃ t, exec .pixSelect s = .next t ∧ Completed .none s t ∧ t.result = 1 ∧ KeepsAllButResult s t) ∧
    (s.channels.toNat = 4 →
      ∃ t, exec .pixSelect s = .next t ∧ Completed .none s t ∧ KeepsAllButResult s t ∧
        ((t.result = 1 ∧ ∀ c, c < 4 → s.opa.extractLsb' (8 * c) 8 ≠ 0) ∨
         (t.result = 0 ∧ ∃ c, c < 4 ∧ s.opa.extractLsb' (8 * c) 8 = 0)))

/-- R153: SENT_MATCH writes 1 exactly when OPB[7:0] is 0x28 and OPA is 0x656E6429, and otherwise 0; OPB[31:8] is ignored. -/
def Obligations.SentMatchTestsTheWindow : Prop :=
  ∀ s : State, ∃ t, exec .sentMatch s = .next t ∧ Completed .none s t ∧ KeepsAllButResult s t ∧
    ((t.result = 1 ∧ s.opb.toNat % 256 = 0x28 ∧ s.opa = 0x656E6429#32) ∨
     (t.result = 0 ∧ (s.opb.toNat % 256 ≠ 0x28 ∨ s.opa ≠ 0x656E6429#32)))

/-- R151: CAPACITY, every case; the counts are exact, without wrap. -/
def Obligations.CapacityReportsTheExactCounts : Prop :=
  ∀ s : State,
    (ConfigBad .capacity s →
      ∃ t, exec .capacity s = .next t ∧ Completed .config s t ∧ KeepsAllButStatus s t) ∧
    (¬ ConfigBad .capacity s → ¬ ImageLoaded s → exec .capacity s = .fault .uninit) ∧
    (¬ ConfigBad .capacity s → ImageLoaded s →
      ∃ t, exec .capacity s = .next t ∧ Completed .none s t ∧
        t.procCount.toNat = pixelsProcessed s ∧ t.capBits.toNat = 3 * pixelsProcessed s ∧ t.reqBits.toNat = 8 * (s.textLen.toNat + 5) ∧
        t.result = (if 8 * (s.textLen.toNat + 5) ≤ 3 * pixelsProcessed s then 1 else 0) ∧
        KeepsInputs s t ∧ t.textLen = s.textLen ∧ KeepsPix s t ∧ KeepsTxt s t ∧ KeepsScan s t)

/-- R144: for an image of 3 or 4 channels the slots are the R, G and B bytes of the processed pixels, each once, in raster
order, which is rising order of address (D13); there are 3 * P of them; with C = 3, P = W * H (R143, derived by the spec). -/
def Obligations.SlotsAreInRasterOrder : Prop :=
  ∀ s : State, (s.channels.toNat = 3 ∨ s.channels.toNat = 4) →
    (slots s).Pairwise (· < ·) ∧
    (∀ a, a ∈ slots s ↔ ∃ y x c, y < s.height.toNat ∧ x < s.width.toNat ∧ c < 3 ∧ PixelProcessed s y x ∧
      a = (y * s.width.toNat + x) * s.channels.toNat + c) ∧
    (slots s).length = 3 * pixelsProcessed s ∧
    (s.channels.toNat = 3 → pixelsProcessed s = s.width.toNat * s.height.toNat)

/-- R148: the match position is the smallest index, of any alignment, at which SENT_BITS stands; without one there is no
match. -/
def Obligations.FirstMatchIsTheSmallestIndex : Prop :=
  ∀ r : List Bool,
    (∀ p, firstMatch r = some p ↔ (SentinelAt r p ∧ ∀ q, q < p → ¬ SentinelAt r q)) ∧
    (firstMatch r = none ↔ ∀ q, ¬ SentinelAt r q)

/-- The streaming detector finds the match position of the batch search (R150, marked derived by the spec), and it stops at
the 40th bit of the match. -/
def Obligations.StreamingDetectorFindsTheFirstMatch : Prop :=
  ∀ r : List Bool,
    (r.foldl detectorPush detectorStart).pos = firstMatch r ∧
    (∀ p, firstMatch r = some p → (r.foldl detectorPush detectorStart).q = p + 40) ∧
    (firstMatch r = none → (r.foldl detectorPush detectorStart).q = r.length)

/-! ## EMBED -/

/-- R170: when the configuration is good, the text and the image are loaded, every code point fits in a byte and the payload
fits, EMBED completes: slot k holds E(old value, S[k]) for every payload bit, every other byte reads as before, and the counts
are written. -/
def Obligations.EmbedWritesTheStreamIntoTheSlots : Prop :=
  ∀ s : State, ImageConfigured s → TextConfigured s → TextLoaded s → TextFits s → ImageLoaded s →
    8 * (s.textLen.toNat + 5) ≤ 3 * pixelsProcessed s →
    ∃ t S, exec .embed s = .next t ∧ encodeText (payload s) = some S ∧ S.length = 8 * (s.textLen.toNat + 5) ∧
      Completed .none s t ∧
      (∀ (k : Nat) (b : Bool), S[k]? = some b → ∃ a v, (slots s)[k]? = some a ∧ Memory.find s.pix a = some v ∧
        Memory.find t.pix a = some (embedBit v b)) ∧
      (∀ a, a ∉ (slots s).take (8 * (s.textLen.toNat + 5)) → Memory.find t.pix a = Memory.find s.pix a) ∧
      t.procCount.toNat = pixelsProcessed s ∧ t.capBits.toNat = 3 * pixelsProcessed s ∧ t.reqBits.toNat = 8 * (s.textLen.toNat + 5) ∧
      KeepsInputs s t ∧ t.textLen = s.textLen ∧ t.result = s.result ∧ KeepsTxt s t ∧ KeepsScan s t

/-- R204: CAPACITY is raised when 8 * (TEXT_LEN + 5) > 3 * P, the counts are written before it, and no byte changes. -/
def Obligations.CapacityErrorReportsTheCounts : Prop :=
  ∀ s : State, ImageConfigured s → TextConfigured s → TextLoaded s → TextFits s → ImageLoaded s →
    3 * pixelsProcessed s < 8 * (s.textLen.toNat + 5) →
    ∃ t, exec .embed s = .next t ∧ Completed .capacity s t ∧
      t.procCount.toNat = pixelsProcessed s ∧ t.capBits.toNat = 3 * pixelsProcessed s ∧ t.reqBits.toNat = 8 * (s.textLen.toNat + 5) ∧
      KeepsPix s t ∧ KeepsTxt s t ∧ KeepsInputs s t ∧ t.textLen = s.textLen ∧ t.result = s.result ∧ KeepsScan s t

/-- R201: EMBED raises ENCODING for a code point of 256 or more below TEXT_LEN, whatever the pixel memory holds and before any
pixel is touched; SER_BYTE raises it when the word it reads is one. -/
def Obligations.EncodingErrorPrecedesThePixels : Prop :=
  (∀ (s : State) (j : Nat) (w : Word), ¬ ConfigBad .embed s → TextLoaded s → j < s.textLen.toNat →
    Memory.find s.txt j = some w → 256 ≤ w.toNat →
    ∃ t, exec .embed s = .next t ∧ Completed .encoding s t ∧ KeepsAllButStatus s t) ∧
  (∀ s t : State, exec .embed s = .next t → errField t.status = errCode .encoding →
    ∃ j w, j < s.textLen.toNat ∧ Memory.find s.txt j = some w ∧ 256 ≤ w.toNat) ∧
  (∀ s t : State, exec .serByte s = .next t →
    (errField t.status = errCode .encoding ↔
      (¬ ConfigBad .serByte s ∧ s.opa.toNat < s.textLen.toNat ∧
        ∃ w, Memory.find s.txt s.opa.toNat = some w ∧ 256 ≤ w.toNat)))

/-- R171: EMBED either writes every payload slot and completes with NONE, or changes no pixel byte and completes with an
error. -/
def Obligations.EmbedIsAllOrNothing : Prop :=
  ∀ s t : State, exec .embed s = .next t →
    (errField t.status = errCode .none ∧
      ∃ S, encodeText (payload s) = some S ∧ S.length = 8 * (s.textLen.toNat + 5) ∧
        ∀ (k : Nat) (b : Bool), S[k]? = some b → ∃ a v, (slots s)[k]? = some a ∧ Memory.find s.pix a = some v ∧
          Memory.find t.pix a = some (embedBit v b)) ∨
    (errField t.status ≠ errCode .none ∧ KeepsPix s t)

/-- The image outside the slots (R175, marked derived by the spec): alpha bytes, the bytes of skipped pixels, the slots past
the payload, and the slots whose bit is 0 are bit-identical before and after EMBED; the dimensions do not change. -/
def Obligations.EmbedLeavesTheRestOfTheImage : Prop :=
  ∀ s t : State, exec .embed s = .next t →
    (∀ y x, s.channels.toNat = 4 → y < s.height.toNat → x < s.width.toNat →
      Memory.find t.pix ((y * s.width.toNat + x) * 4 + 3) = Memory.find s.pix ((y * s.width.toNat + x) * 4 + 3)) ∧
    (∀ y x c, y < s.height.toNat → x < s.width.toNat → c < s.channels.toNat → ¬ PixelProcessed s y x →
      Memory.find t.pix ((y * s.width.toNat + x) * s.channels.toNat + c) =
        Memory.find s.pix ((y * s.width.toNat + x) * s.channels.toNat + c)) ∧
    (∀ (k a : Nat), 8 * (s.textLen.toNat + 5) ≤ k → (slots s)[k]? = some a →
      Memory.find t.pix a = Memory.find s.pix a) ∧
    (∀ (k a : Nat) (S : List Bool), encodeText (payload s) = some S → S[k]? = some false → (slots s)[k]? = some a →
      Memory.find t.pix a = Memory.find s.pix a) ∧
    t.width = s.width ∧ t.height = s.height ∧ t.channels = s.channels

/-- A whole-machine rule from R63, R120 and R171: no command changes any bit of any pixel byte but bit 1, and none changes
which pixel bytes are written. -/
def Obligations.OnlyBitOneOfAPixelByteChanges : Prop :=
  ∀ (i : Instr) (s t : State), exec i s = .next t → ∀ a,
    (Memory.find t.pix a).isSome = (Memory.find s.pix a).isSome ∧
    ∀ b, b ≠ 1 → (pixRead t.pix a).getLsbD b = (pixRead s.pix a).getLsbD b

/-! ## EXTRACT -/

/-- R172 with a match: when the configuration is good, the image is loaded and SENT_BITS first stands at index p of the
recovered stream, EXTRACT completes with the floor(p/8) bytes before it, SENT_POS = p, BITS_SCANNED = p + 40, SFOUND = 1 and
TRUNC as p mod 8 says; every other word and every pixel reads as before. -/
def Obligations.ExtractDeliversTheTextBeforeTheMatch : Prop :=
  ∀ (s : State) (p : Nat), ImageConfigured s → 3 * s.width.toNat * s.height.toNat / 8 ≤ s.params.textDepth.val →
    ImageLoaded s → SentinelAt (recovered s) p → (∀ q, q < p → ¬ SentinelAt (recovered s) q) →
    ∃ t, exec .extract s = .next t ∧
      (∀ j, j < p / 8 → (Memory.find t.txt j).map BitVec.toNat = some (byteSum (recovered s) j)) ∧
      (∀ j, p / 8 ≤ j → Memory.find t.txt j = Memory.find s.txt j) ∧
      t.textLen.toNat = p / 8 ∧ t.sentPos.toNat = p ∧ t.bitsScanned.toNat = p + 40 ∧
      busyBit t.status = false ∧ doneBit t.status = true ∧ errField t.status = errCode .none ∧
      sfoundBit t.status = true ∧ truncBit t.status = decide (p % 8 ≠ 0) ∧
      KeepsInputs s t ∧ t.result = s.result ∧ KeepsPix s t ∧ KeepsCounts s t

/-- R173: with no match EXTRACT still completes with NONE; it delivers the whole recovered stream, truncated to a multiple of
8 and decoded, with SFOUND = 0, SENT_POS = 0 and BITS_SCANNED = 3 * P. -/
def Obligations.ExtractIsBestEffort : Prop :=
  ∀ s : State, ImageConfigured s → 3 * s.width.toNat * s.height.toNat / 8 ≤ s.params.textDepth.val →
    ImageLoaded s → (∀ q, ¬ SentinelAt (recovered s) q) →
    ∃ t, exec .extract s = .next t ∧
      (∀ j, j < 3 * pixelsProcessed s / 8 → (Memory.find t.txt j).map BitVec.toNat = some (byteSum (recovered s) j)) ∧
      (∀ j, 3 * pixelsProcessed s / 8 ≤ j → Memory.find t.txt j = Memory.find s.txt j) ∧
      t.textLen.toNat = 3 * pixelsProcessed s / 8 ∧ t.sentPos.toNat = 0 ∧ t.bitsScanned.toNat = 3 * pixelsProcessed s ∧
      busyBit t.status = false ∧ doneBit t.status = true ∧ errField t.status = errCode .none ∧
      sfoundBit t.status = false ∧ truncBit t.status = decide (3 * pixelsProcessed s % 8 ≠ 0) ∧
      KeepsInputs s t ∧ t.result = s.result ∧ KeepsPix s t ∧ KeepsCounts s t

/-- The recovered stream (R172): bit k is X of the byte at slot k. -/
def Obligations.RecoveredBitsAreTheSlotsInOrder : Prop :=
  ∀ s : State, (recovered s).length = (slots s).length ∧
    ∀ (k a : Nat) (v : Byte), (slots s)[k]? = some a → Memory.find s.pix a = some v →
      (recovered s)[k]? = some (v.getLsbD 1 ^^ v.getLsbD 0)

/-- The round-trip law (R174, marked derived by the spec). Beside R174's own conditions it asks that EXTRACT's CONFIG check
passes (R202, fourth line) and that the memories are loaded (R66). -/
def Obligations.RoundTrip : Prop :=
  ∀ (s : State) (S : List Bool), ImageConfigured s → TextConfigured s →
    3 * s.width.toNat * s.height.toNat / 8 ≤ s.params.textDepth.val →
    TextLoaded s → ImageLoaded s → encodeText (payload s) = some S →
    8 * (s.textLen.toNat + 5) ≤ 3 * pixelsProcessed s →
    (∀ k a, k < 8 * (s.textLen.toNat + 5) → (slots s)[k]? = some a →
      (pixRead s.pix a).getLsbD 1 = (pixRead s.pix a).getLsbD 0) →
    (∀ q, q < 8 * s.textLen.toNat → ¬ SentinelAt S q) →
    ∃ t u, exec .embed s = .next t ∧ errField t.status = errCode .none ∧
      exec .extract t = .next u ∧ errField u.status = errCode .none ∧
      u.textLen = s.textLen ∧ (∀ j, j < s.textLen.toNat → Memory.find u.txt j = Memory.find s.txt j) ∧
      sfoundBit u.status = true ∧ truncBit u.status = false ∧
      u.sentPos.toNat = 8 * s.textLen.toNat ∧ u.bitsScanned.toNat = 8 * s.textLen.toNat + 40

/-! ## Errors over all commands -/

/-- R202: a command that answers a next state completes with CONFIG exactly when one of the four lines holds for it, and then
nothing but STATUS changes; and with one of them it always answers a next state. -/
def Obligations.ConfigErrorConditions : Prop :=
  ∀ (i : Instr) (s : State),
    (ConfigBad i s → ∃ t, exec i s = .next t ∧ Completed .config s t ∧ KeepsAllButStatus s t) ∧
    (∀ t, exec i s = .next t → errField t.status = errCode .config → ConfigBad i s)

/-- R200: the code of each error; the codes each command can raise; an illegal word, and nothing else, raises 4; no code is
above 5. -/
def Obligations.ErrorCodesOfEachCommand : Prop :=
  (errCode .none = 0 ∧ errCode .capacity = 1 ∧ errCode .encoding = 2 ∧ errCode .config = 3 ∧ errCode .illegal = 4 ∧
    errCode .range = 5) ∧
  (∀ (i : Instr) (s t : State), exec i s = .next t →
    errField t.status ∈ (match i with
      | .embed => [0#4, 1#4, 2#4, 3#4]
      | .extract => [0#4, 3#4]
      | .capacity => [0#4, 3#4]
      | .serByte => [0#4, 2#4, 3#4, 5#4]
      | .chanEmbed => [0#4]
      | .chanExtract => [0#4]
      | .pixSelect => [0#4, 3#4]
      | .sentMatch => [0#4])) ∧
  (∀ s t : State, completion s = .next t →
    (errField t.status).toNat ≤ 5 ∧ (errField t.status = 4#4 ↔ legalWord s.pend = false))

/-- Precision (R207, marked derived by the spec): a command that completes with an error leaves both memories and every
register but STATUS as they were, except that EMBED's CAPACITY error has written the three counts. -/
def Obligations.ErrorsArePrecise : Prop :=
  ∀ s t : State, completion s = .next t → errField t.status ≠ errCode .none →
    KeepsInputs s t ∧ t.textLen = s.textLen ∧ t.result = s.result ∧ KeepsPix s t ∧ KeepsTxt s t ∧ KeepsScan s t ∧
    (KeepsCounts s t ∨ (s.pend = encode .embed ∧ errField t.status = errCode .capacity))

/-- R20, R33 to R35, R63 and R65: no command writes WIDTH, HEIGHT, CHANNELS, OPA, OPB or PEND; only EXTRACT writes TEXT_LEN
and text memory, and only words below its output length, with values below 256; only EMBED writes pixel memory; only EMBED and
CAPACITY write the counts; only EXTRACT writes the scan registers. -/
def Obligations.EachCommandWritesOnlyItsOwn : Prop :=
  ∀ (i : Instr) (s t : State), exec i s = .next t →
    KeepsInputs s t ∧
    (i ≠ .embed → KeepsPix s t) ∧
    (i ≠ .extract → t.textLen = s.textLen ∧ KeepsTxt s t ∧ KeepsScan s t) ∧
    (i = .extract → ∀ j, Memory.find t.txt j = Memory.find s.txt j ∨
      (j < t.textLen.toNat ∧ ∃ w, Memory.find t.txt j = some w ∧ w.toNat < 256)) ∧
    (i ≠ .embed → i ≠ .capacity → KeepsCounts s t) ∧
    (i = .embed ∨ i = .extract → t.result = s.result)

/-- R46: no command's result depends on an earlier command's. Two states with the same build, input registers and memories,
whatever else they hold, fault alike, complete with the same code, and give the same memories, TEXT_LEN and written results,
the counts that EMBED writes before a CAPACITY error (R204) among them. -/
def Obligations.NoCommandSeesEarlierResults : Prop :=
  ∀ (i : Instr) (s u : State), s.params = u.params → s.width = u.width → s.height = u.height →
    s.channels = u.channels → s.textLen = u.textLen → s.opa = u.opa → s.opb = u.opb → s.pix = u.pix → s.txt = u.txt →
    (∀ f, exec i s = .fault f ↔ exec i u = .fault f) ∧
    ∀ t, exec i s = .next t → ∃ v, exec i u = .next v ∧
      t.pix = v.pix ∧ t.txt = v.txt ∧ t.textLen = v.textLen ∧ errField t.status = errField v.status ∧
      (errField t.status = errCode .none ∧ (i = .embed ∨ i = .capacity) ∨
        errField t.status = errCode .capacity ∧ i = .embed →
          t.procCount = v.procCount ∧ t.capBits = v.capBits ∧ t.reqBits = v.reqBits) ∧
      (errField t.status = errCode .none →
        (i ≠ .embed → i ≠ .extract → t.result = v.result) ∧
        (i = .extract → t.sentPos = v.sentPos ∧ t.bitsScanned = v.bitsScanned ∧
          sfoundBit t.status = sfoundBit v.status ∧ truncBit t.status = truncBit v.status))

/-! ## Host ports -/

/-- R42: the reserved offsets 0x38 to 0xFF read 0 and ignore writes. -/
def Obligations.ReservedOffsetsReadZero : Prop :=
  ∀ (s : State) (offset : BitVec 8) (v : Word), 0x38 ≤ offset.toNat → offset.toNat % 4 = 0 →
    hostRegRead offset 4 s = .next { s with lastRead := some 0x00000000#32 } ∧
    hostRegWrite offset 4 v s = .next s

/-- R30, R31 (and the other input registers): a host write with BUSY = 0 stores the implemented bits, reserved bits read as 0,
and nothing else changes; and R20, R67: with BUSY = 0 a host read of any register returns its value and changes nothing but
what the host has read. -/
def Obligations.InputRegistersStoreTheirBits : Prop :=
  ∀ (s : State) (v : Word), busyBit s.status = false →
    (∀ r : Reg, hostRegRead (regOffset r) 4 s = .next { s with lastRead := some (readReg r s) }) ∧
    (∃ t, hostRegWrite 0x08 4 v s = .next t ∧ t = { s with width := t.width } ∧
      readReg .width t = v &&& 0x00007FFF#32) ∧
    (∃ t, hostRegWrite 0x0C 4 v s = .next t ∧ t = { s with height := t.height } ∧
      readReg .height t = v &&& 0x00007FFF#32) ∧
    (∃ t, hostRegWrite 0x10 4 v s = .next t ∧ t = { s with channels := t.channels } ∧
      readReg .channels t = v &&& 0x00000007#32) ∧
    hostRegWrite 0x14 4 v s = .next { s with textLen := v } ∧
    hostRegWrite 0x18 4 v s = .next { s with opa := v } ∧
    hostRegWrite 0x1C 4 v s = .next { s with opb := v }

/-- R29 (and the result registers' access right R of R20): a write to STATUS or to a result register is ignored; STATUS bits
[31:8] read as 0. -/
def Obligations.ReadOnlyRegistersIgnoreWrites : Prop :=
  (∀ (s : State) (v : Word) (r : Reg), r ∈ [Reg.status, .result, .procCount, .capBits, .reqBits, .sentPos, .bitsScanned] →
    hostRegWrite (regOffset r) 4 v s = .next s) ∧
  (∀ (s : State) (i : Nat), 8 ≤ i → (readReg .status s).getLsbD i = false)

/-- R68: with BUSY = 0 a port write inside the memory stores the value and marks the location written, and changes no other
location; a read returns the stored value, or a freshly drawn free value where nothing is written (any value: the statement
uses none); outside the memory a read gives 0 and a write does nothing. -/
def Obligations.MemoryPortsReadAndWrite : Prop :=
  ∀ s : State, busyBit s.status = false →
    (∀ a v, a < s.params.pixBytes.val → ∃ t, hostPixWrite a v s = .next t ∧ t = { s with pix := t.pix } ∧
      ∀ b, Memory.find t.pix b = if a = b then some v else Memory.find s.pix b) ∧
    (∀ j v, j < s.params.textDepth.val → ∃ t, hostTxtWrite j v s = .next t ∧ t = { s with txt := t.txt } ∧
      ∀ b, Memory.find t.txt b = if j = b then some v else Memory.find s.txt b) ∧
    (∀ a v, a < s.params.pixBytes.val → Memory.find s.pix a = some v →
      hostPixRead a s = .next { s with lastRead := some (v.setWidth 32) }) ∧
    (∀ j v, j < s.params.textDepth.val → Memory.find s.txt j = some v →
      hostTxtRead j s = .next { s with lastRead := some v }) ∧
    (∀ a, a < s.params.pixBytes.val → Memory.find s.pix a = none →
      hostPixRead a s = .next { s with
        lastRead := some ((Config.freeByte s.freeCount).setWidth 32), freeCount := s.freeCount + 1 }) ∧
    (∀ j, j < s.params.textDepth.val → Memory.find s.txt j = none →
      hostTxtRead j s = .next { s with
        lastRead := some (Config.freeWord s.freeCount), freeCount := s.freeCount + 1 }) ∧
    (∀ a v, s.params.pixBytes.val ≤ a →
      hostPixWrite a v s = .next s ∧ hostPixRead a s = .next { s with lastRead := some 0 }) ∧
    (∀ j v, s.params.textDepth.val ≤ j →
      hostTxtWrite j v s = .next s ∧ hostTxtRead j s = .next { s with lastRead := some 0 })

/-- R213: a step is refused in exactly two cases, a host register access that is not a whole aligned word, and a host PIX or
TXT access while BUSY = 1. -/
def Obligations.RefusalsAreTheTwoCases : Prop :=
  ∀ (s : State) (r : Refusal), step s = .refused r ↔
    (HostMovesNext s ∧ ∃ op rest, s.host = op :: rest ∧
      ((r = .partialRegisterAccess ∧ ∃ offset bytes, RegisterPortOp op offset bytes ∧
          ¬ (bytes = 4 ∧ offset.toNat % 4 = 0)) ∨
       (r = .memoryAccessWhileBusy ∧ busyBit s.status = true ∧ MemoryPortOp op)))

/-- R66, R212: a completion faults exactly at the read points of R66, in the order of R206. -/
def Obligations.FaultsAreTheReadPoints : Prop :=
  ∀ (s : State) (f : Fault), completion s = .fault f ↔
    ((s.pend = encode .embed ∧ ¬ ConfigBad .embed s ∧ (¬ TextLoaded s ∨ (TextFits s ∧ ¬ ImageLoaded s))) ∨
     (s.pend = encode .extract ∧ ¬ ConfigBad .extract s ∧ ¬ ImageLoaded s) ∨
     (s.pend = encode .capacity ∧ ¬ ConfigBad .capacity s ∧ ¬ ImageLoaded s) ∨
     (s.pend = encode .serByte ∧ ¬ ConfigBad .serByte s ∧ s.opa.toNat < s.textLen.toNat ∧
       Memory.find s.txt s.opa.toNat = none))

/-- R47, R212, R213: both are empty at the start of a run; a step adds UNINIT to the fault set exactly where the engine has the
next move and its command is at a read point of R66, and sets the refusal mark exactly where the host has the next move and its
access is one of the two of R213; nothing clears either. Who moves next is log entry 7, that both are read off the run's stop
log entry 6. -/
def Obligations.FaultSetAndRefusalMarkAreSetAtTheirPoints : Prop :=
  ∀ (k : Nat) (s : State),
    faultSet 0 s = [] ∧ refusalMark 0 s = false ∧
    (Fault.uninit ∈ faultSet (k + 1) s ↔
      (Fault.uninit ∈ faultSet k s ∨ ∃ t, runsTo k s t ∧ EngineMovesNext t ∧ AtReadPoint t)) ∧
    (refusalMark (k + 1) s = true ↔
      (refusalMark k s = true ∨ ∃ t, runsTo k s t ∧ HostMovesNext t ∧ HostAccessWithoutMeaning t))

/-- R69: a host read, or a poll, changes nothing but what the host has read and the count of free values drawn. -/
def Obligations.HostReadsHaveNoSideEffect : Prop :=
  ∀ s t : State,
    (∀ offset bytes, hostRegRead offset bytes s = .next t →
      t = { s with lastRead := t.lastRead, freeCount := t.freeCount }) ∧
    (∀ a, hostPixRead a s = .next t → t = { s with lastRead := t.lastRead, freeCount := t.freeCount }) ∧
    (∀ j, hostTxtRead j s = .next t → t = { s with lastRead := t.lastRead, freeCount := t.freeCount }) ∧
    (hostWait s = .next t → t = { s with lastRead := t.lastRead, host := t.host })

/-- R94, R95, R23, R205: the line `RUN i` of a host program, reached with BUSY = 0 and no other agent's turn named (log entry
7), accepts the command word of `i`; the very next step is the completion of `i`, with the host in WAIT. -/
def Obligations.RunLineRunsTheCommand : Prop :=
  ∀ (i : Instr) (s : State) (rest : List HostOp), busyBit s.status = false → s.turns = [] →
    s.host = expand (.RUN i) ++ rest →
    ∃ u, step s = .next u ∧ u = { s with pend := encode i, status := 1#8, host := .wait :: rest } ∧ step u = exec i u

/-- R241, R95: a WAIT ends. In a state of the invariant (it rules out BUSY = DONE = 1), with a command accepted, the host in
WAIT and any number k of its polls before the engine's move, step k + 1 is the completion; unless it is the model's fault
UNINIT, DONE = 1 then, and the next step reads that STATUS and ends the WAIT. -/
def Obligations.WaitEndsWithTheCompletion : Prop :=
  ∀ (k : Nat) (s : State) (rest : List HostOp), Inv s → busyBit s.status = true → s.host = .wait :: rest →
    s.turns = List.replicate k .host →
    Host.Core.run Sys2Proof.core (k + 1) s = .fault .uninit ∨
    ∃ u v, Host.Core.run Sys2Proof.core (k + 1) s = .next u ∧ doneBit u.status = true ∧ u.host = .wait :: rest ∧
      step u = .next v ∧ v.host = rest ∧ v.lastRead = some (readReg .status u)

/-- R20, R29 to R41, R67: with BUSY = 0 a host read at each offset of the register map returns that register's stored bits,
reserved bits and CMD as 0, and changes nothing but what the host has read. -/
def Obligations.RegistersReadAtTheirOffsets : Prop :=
  ∀ s : State, busyBit s.status = false →
    hostRegRead 0x00 4 s = .next { s with lastRead := some 0 } ∧
    hostRegRead 0x04 4 s = .next { s with lastRead := some (s.status.setWidth 32) } ∧
    hostRegRead 0x08 4 s = .next { s with lastRead := some (s.width.setWidth 32) } ∧
    hostRegRead 0x0C 4 s = .next { s with lastRead := some (s.height.setWidth 32) } ∧
    hostRegRead 0x10 4 s = .next { s with lastRead := some (s.channels.setWidth 32) } ∧
    hostRegRead 0x14 4 s = .next { s with lastRead := some s.textLen } ∧
    hostRegRead 0x18 4 s = .next { s with lastRead := some s.opa } ∧
    hostRegRead 0x1C 4 s = .next { s with lastRead := some s.opb } ∧
    hostRegRead 0x20 4 s = .next { s with lastRead := some s.result } ∧
    hostRegRead 0x24 4 s = .next { s with lastRead := some s.procCount } ∧
    hostRegRead 0x28 4 s = .next { s with lastRead := some s.capBits } ∧
    hostRegRead 0x2C 4 s = .next { s with lastRead := some s.reqBits } ∧
    hostRegRead 0x30 4 s = .next { s with lastRead := some s.sentPos } ∧
    hostRegRead 0x34 4 s = .next { s with lastRead := some s.bitsScanned }
end

