-- ==== Sys2Proof/Laws/Codec.lean ====
section
/-! SUPPORT. The laws of the serializer and of the two channel transforms: lengths, bits at an index, and decoding of
serialized bytes. -/

namespace Sys2Proof.Machine

@[simp] theorem length_bits8 (b : Byte) : (bits8 b).length = 8 := rfl
@[simp] theorem length_sent : sent.length = 5 := rfl
@[simp] theorem length_sentBits : sentBits.length = 40 := by decide

@[simp] theorem length_flatMap_bits8 (T : List Byte) : (T.flatMap bits8).length = 8 * T.length := by
  induction T with
  | nil => rfl
  | cons b T ih => rw [List.flatMap_cons, List.length_append, ih, length_bits8, List.length_cons]; omega

theorem length_stream (T : List Byte) : (stream T).length = 8 * (T.length + 5) := by
  rw [stream, length_flatMap_bits8, List.length_append, length_sent]

theorem stream_eq_append (T : List Byte) : stream T = T.flatMap bits8 ++ sentBits := by
  rw [stream, List.flatMap_append, sentBits]

/-- Bit i of a serialized byte, first bit most significant. -/
theorem getElem?_bits8 (b : Byte) {i : Nat} (h : i < 8) : (bits8 b)[i]? = some (b.getLsbD (7 - i)) := by
  have : i = 0 ∨ i = 1 ∨ i = 2 ∨ i = 3 ∨ i = 4 ∨ i = 5 ∨ i = 6 ∨ i = 7 := by omega
  rcases this with rfl | rfl | rfl | rfl | rfl | rfl | rfl | rfl <;> rfl

/-- Bit k of serialized bytes is bit 7 - (k mod 8) of byte floor(k / 8). -/
theorem getElem?_flatMap_bits8 (T : List Byte) (k : Nat) :
    (T.flatMap bits8)[k]? = (T[k / 8]?).map fun b => b.getLsbD (7 - k % 8) := by
  induction T generalizing k with
  | nil => simp
  | cons b T ih =>
    rw [List.flatMap_cons]
    by_cases hk : k < 8
    · rw [List.getElem?_append_left (by simpa using hk), getElem?_bits8 b hk, Nat.div_eq_of_lt hk, Nat.mod_eq_of_lt hk]
      rfl
    · have hdiv : k / 8 = (k - 8) / 8 + 1 := by omega
      have hmod : (k - 8) % 8 = k % 8 := by omega
      rw [List.getElem?_append_right (by simpa using hk), length_bits8, ih, hdiv, hmod, List.getElem?_cons_succ]

theorem byteOf_bits (b : Byte) : byteOf (b.getLsbD 7) (b.getLsbD 6) (b.getLsbD 5) (b.getLsbD 4) (b.getLsbD 3)
    (b.getLsbD 2) (b.getLsbD 1) (b.getLsbD 0) = b := by
  revert b
  decide

theorem bits8_byteOf (b7 b6 b5 b4 b3 b2 b1 b0 : Bool) :
    bits8 (byteOf b7 b6 b5 b4 b3 b2 b1 b0) = [b7, b6, b5, b4, b3, b2, b1, b0] := by
  revert b7 b6 b5 b4 b3 b2 b1 b0
  decide

theorem toNat_byteOf (b7 b6 b5 b4 b3 b2 b1 b0 : Bool) :
    (byteOf b7 b6 b5 b4 b3 b2 b1 b0).toNat = b7.toNat * 128 + b6.toNat * 64 + b5.toNat * 32 + b4.toNat * 16 +
      b3.toNat * 8 + b2.toNat * 4 + b1.toNat * 2 + b0.toNat := by
  revert b7 b6 b5 b4 b3 b2 b1 b0
  decide

theorem decodeBits_bits8_append (b : Byte) (D : List Bool) : decodeBits (bits8 b ++ D) = b :: decodeBits D := by
  show byteOf _ _ _ _ _ _ _ _ :: decodeBits D = _
  rw [byteOf_bits]

/-- Decoding takes serialized bytes off the front. -/
theorem decodeBits_flatMap_append (T : List Byte) (D : List Bool) :
    decodeBits (T.flatMap bits8 ++ D) = T ++ decodeBits D := by
  induction T with
  | nil => rfl
  | cons b T ih => rw [List.flatMap_cons, List.append_assoc, decodeBits_bits8_append, ih, List.cons_append]

theorem decodeBits_of_length_lt {D : List Bool} (h : D.length < 8) : decodeBits D = [] := by
  match D, h with
  | [], _ => rfl
  | [_], _ => rfl
  | [_, _], _ => rfl
  | [_, _, _], _ => rfl
  | [_, _, _, _], _ => rfl
  | [_, _, _, _, _], _ => rfl
  | [_, _, _, _, _, _], _ => rfl
  | [_, _, _, _, _, _, _], _ => rfl
  | _ :: _ :: _ :: _ :: _ :: _ :: _ :: _ :: _, h => simp only [List.length_cons] at h; omega

/-- Every bit list is serialized bytes followed by fewer than 8 bits. -/
theorem exists_bytes_append (D : List Bool) :
    ∃ (T : List Byte) (E : List Bool), D = T.flatMap bits8 ++ E ∧ T.length = D.length / 8 ∧ E.length = D.length % 8 := by
  match D with
  | b7 :: b6 :: b5 :: b4 :: b3 :: b2 :: b1 :: b0 :: D =>
    obtain ⟨T, E, hD, hT, hE⟩ := exists_bytes_append D
    refine ⟨byteOf b7 b6 b5 b4 b3 b2 b1 b0 :: T, E, ?_, ?_, ?_⟩
    · rw [List.flatMap_cons, bits8_byteOf, List.append_assoc, ← hD]
      rfl
    · rw [List.length_cons, hT]
      simp only [List.length_cons]
      omega
    · rw [hE]
      simp only [List.length_cons]
      omega
  | [] => exact ⟨[], [], rfl, by decide, rfl⟩
  | [a] => exact ⟨[], [a], rfl, by simp, rfl⟩
  | [a, b] => exact ⟨[], [a, b], rfl, by simp, rfl⟩
  | [a, b, c] => exact ⟨[], [a, b, c], rfl, by simp, rfl⟩
  | [a, b, c, d] => exact ⟨[], [a, b, c, d], rfl, by simp, rfl⟩
  | [a, b, c, d, e] => exact ⟨[], [a, b, c, d, e], rfl, by simp, rfl⟩
  | [a, b, c, d, e, f] => exact ⟨[], [a, b, c, d, e, f], rfl, by simp, rfl⟩
  | [a, b, c, d, e, f, g] => exact ⟨[], [a, b, c, d, e, f, g], rfl, by simp, rfl⟩

@[simp] theorem length_decodeBits (D : List Bool) : (decodeBits D).length = D.length / 8 := by
  obtain ⟨T, E, hD, hT, hE⟩ := exists_bytes_append D
  rw [hD, decodeBits_flatMap_append, decodeBits_of_length_lt (by omega), List.append_nil, hT, ← hD]

/-- Truncation before decoding changes nothing that is decoded. -/
theorem decodeBits_truncate8 (D : List Bool) : decodeBits (truncate8 D) = decodeBits D := by
  obtain ⟨T, E, hD, hT, hE⟩ := exists_bytes_append D
  have htake : truncate8 D = T.flatMap bits8 := by
    rw [truncate8, ← hT, hD, List.take_left' (length_flatMap_bits8 T)]
  rw [htake, hD, decodeBits_flatMap_append, decodeBits_of_length_lt (D := E) (by omega), List.append_nil]
  have h := decodeBits_flatMap_append T []
  rwa [List.append_nil, show decodeBits [] = [] from rfl, List.append_nil] at h

/-- The bits of a decoded byte are the bits it was decoded from. -/
theorem getLsbD_decodeBits {D : List Bool} {j i : Nat} {b : Byte} (hb : (decodeBits D)[j]? = some b) (hi : i < 8) :
    D[8 * j + i]? = some (b.getLsbD (7 - i)) := by
  obtain ⟨T, E, hD, hT, hE⟩ := exists_bytes_append D
  rw [hD, decodeBits_flatMap_append, decodeBits_of_length_lt (by omega), List.append_nil] at hb
  have hj : j < T.length := (List.getElem?_eq_some_iff.1 hb).1
  rw [hD, List.getElem?_append_left (by rw [length_flatMap_bits8]; omega), getElem?_flatMap_bits8,
    show (8 * j + i) / 8 = j by omega, show (8 * j + i) % 8 = i by omega, hb]
  rfl

theorem encodeText_eq_some {T : List Word} {S : List Bool} (h : encodeText T = some S) :
    (∀ w ∈ T, w.toNat < 256) ∧ S = stream (T.map lowByte) := by
  unfold encodeText at h
  split at h
  · next hT =>
    refine ⟨fun w hw => ?_, (Option.some.inj h).symm⟩
    simpa [fitsByte] using List.all_eq_true.1 hT w hw
  · cases h

theorem encodeText_of_fits {T : List Word} (h : ∀ w ∈ T, w.toNat < 256) :
    encodeText T = some (stream (T.map lowByte)) := by
  unfold encodeText
  rw [if_pos (List.all_eq_true.2 fun w hw => by simpa [fitsByte] using h w hw)]

theorem encodeText_eq_none {T : List Word} (h : encodeText T = none) : ∃ w ∈ T, 256 ≤ w.toNat := by
  by_contra hne
  push Not at hne
  rw [encodeText_of_fits hne] at h
  cases h

theorem toNat_lowByte {w : Word} (h : w.toNat < 256) : (lowByte w).toNat = w.toNat := by
  rw [lowByte, BitVec.extractLsb'_toNat, Nat.shiftRight_zero]
  omega

theorem setWidth_lowByte {w : Word} (h : w.toNat < 256) : (lowByte w).setWidth 32 = w :=
  BitVec.eq_of_toNat_eq (by rw [BitVec.toNat_setWidth, toNat_lowByte h, Nat.mod_eq_of_lt w.isLt])

/-! ## The channel transforms -/

/-- Bit 1 is replaced by its XOR with the payload bit; every other bit is unchanged (R120). -/
theorem getLsbD_embedBit (v : Byte) (m : Bool) (i : Nat) :
    (embedBit v m).getLsbD i = if i = 1 then v.getLsbD 1 ^^ m else v.getLsbD i := by
  by_cases hi : i < 8
  · have key : ∀ (v : Byte) (m : Bool) (i : Fin 8),
        (embedBit v m).getLsbD i = if i.val = 1 then v.getLsbD 1 ^^ m else v.getLsbD i := by decide
    exact key v m ⟨i, hi⟩
  · rw [if_neg (by omega), BitVec.getLsbD_of_ge _ _ (by omega), BitVec.getLsbD_of_ge _ _ (by omega)]

@[simp] theorem embedBit_false (v : Byte) : embedBit v false = v := by revert v; decide

theorem extractBit_eq (v : Byte) : extractBit v = (v.getLsbD 1 ^^ v.getLsbD 0) := by
  unfold extractBit
  cases v.getLsbD 1 <;> cases v.getLsbD 0 <;> rfl

end Sys2Proof.Machine
end

