-- ==== Sys2Proof/Laws/Memory.lean ====
section
/-! SUPPORT. The laws of sparse memory: what a store, a forgetting and the two write loops can do, and that each keeps
the canonical form. -/

namespace Sys2Proof.Machine

variable {n : Nat}

/-! ## `find` and `store` -/

@[simp] theorem Memory.find_nil (a : Nat) : Memory.find ([] : List (Nat × BitVec n)) a = none := rfl

theorem Memory.find_cons (c : Nat × BitVec n) (m : List (Nat × BitVec n)) (a : Nat) :
    Memory.find (c :: m) a = if c.1 = a then some c.2 else Memory.find m a := rfl

/-- A read after a write to the same place gives the value written; every other place is left alone. -/
theorem Memory.find_store (m : List (Nat × BitVec n)) (a : Nat) (v : BitVec n) (b : Nat) :
    Memory.find (Memory.store m a v) b = if a = b then some v else Memory.find m b := by
  induction m with
  | nil => rfl
  | cons c m ih =>
    unfold Memory.store
    by_cases h1 : a < c.1
    · rw [if_pos h1, Memory.find_cons]
    · rw [if_neg h1]
      by_cases h2 : a = c.1
      · rw [if_pos h2, Memory.find_cons, Memory.find_cons]
        subst h2
        by_cases h3 : c.1 = b <;> simp [h3]
      · rw [if_neg h2, Memory.find_cons, Memory.find_cons, ih]
        by_cases h3 : c.1 = b
        · have : a ≠ b := by omega
          simp [h3, this]
        · simp [h3]

@[simp] theorem Memory.find_store_same (m : List (Nat × BitVec n)) (a : Nat) (v : BitVec n) :
    Memory.find (Memory.store m a v) a = some v := by rw [Memory.find_store, if_pos rfl]

theorem Memory.find_store_ne (m : List (Nat × BitVec n)) {a b : Nat} (v : BitVec n) (h : a ≠ b) :
    Memory.find (Memory.store m a v) b = Memory.find m b := by rw [Memory.find_store, if_neg h]

theorem Memory.mem_of_mem_store {m : List (Nat × BitVec n)} {a : Nat} {v : BitVec n} {c : Nat × BitVec n}
    (h : c ∈ Memory.store m a v) : c = (a, v) ∨ c ∈ m := by
  induction m with
  | nil => exact .inl (by simpa [Memory.store] using h)
  | cons d m ih =>
    unfold Memory.store at h
    split at h
    · simpa using h
    · split at h
      · rcases List.mem_cons.1 h with h | h
        · exact .inl h
        · exact .inr (List.mem_cons_of_mem _ h)
      · rcases List.mem_cons.1 h with h | h
        · exact .inr (h ▸ List.mem_cons_self)
        · exact (ih h).imp_right (List.mem_cons_of_mem _)

/-- A store keeps the canonical form. -/
theorem Memory.store_wf {m : List (Nat × BitVec n)} (h : Memory.wf m) (a : Nat) (v : BitVec n) :
    Memory.wf (Memory.store m a v) := by
  induction m with
  | nil => exact List.pairwise_singleton _ _
  | cons d m ih =>
    obtain ⟨hd, hm⟩ := List.pairwise_cons.1 h
    unfold Memory.store
    split
    · next hlt =>
      refine List.pairwise_cons.2 ⟨fun c hc => ?_, h⟩
      rcases List.mem_cons.1 hc with rfl | hc
      · exact hlt
      · exact Nat.lt_trans hlt (hd c hc)
    · split
      · next heq => exact List.pairwise_cons.2 ⟨fun c hc => heq ▸ hd c hc, hm⟩
      · next hnlt hne =>
        refine List.pairwise_cons.2 ⟨fun c hc => ?_, ih hm⟩
        rcases Memory.mem_of_mem_store hc with rfl | hc
        · show d.1 < a
          omega
        · exact hd c hc

/-- An address is written exactly when it is listed. -/
theorem Memory.find_isSome_iff (m : List (Nat × BitVec n)) (a : Nat) :
    (Memory.find m a).isSome = true ↔ ∃ c ∈ m, c.1 = a := by
  induction m with
  | nil => simp
  | cons d m ih =>
    rw [Memory.find_cons]
    by_cases h : d.1 = a <;> simp [h, ih]

theorem Memory.mem_of_find {m : List (Nat × BitVec n)} {a : Nat} {v : BitVec n} (h : Memory.find m a = some v) :
    (a, v) ∈ m := by
  induction m with
  | nil => simp at h
  | cons d m ih =>
    rw [Memory.find_cons] at h
    split at h
    · next hd =>
      have : d = (a, v) := Prod.ext hd (by simpa using h)
      exact this ▸ List.mem_cons_self
    · exact List.mem_cons_of_mem _ (ih h)

theorem Memory.find_eq_none_of_lt {m : List (Nat × BitVec n)} {a : Nat} (h : ∀ c ∈ m, a < c.1) :
    Memory.find m a = none := by
  rw [← Option.not_isSome_iff_eq_none, Memory.find_isSome_iff]
  rintro ⟨c, hc, rfl⟩
  exact Nat.lt_irrefl _ (h c hc)

/-- Equal memories are equal data: in canonical form, memories that read alike everywhere are the same list. -/
theorem Memory.ext {m m' : List (Nat × BitVec n)} (h : Memory.wf m) (h' : Memory.wf m')
    (heq : ∀ a, Memory.find m a = Memory.find m' a) : m = m' := by
  induction m generalizing m' with
  | nil =>
    cases m' with
    | nil => rfl
    | cons d m' => simpa [Memory.find_cons] using heq d.1
  | cons c m ih =>
    cases m' with
    | nil => simpa [Memory.find_cons] using heq c.1
    | cons d m' =>
      obtain ⟨hc, hm⟩ := List.pairwise_cons.1 h
      obtain ⟨hd, hm'⟩ := List.pairwise_cons.1 h'
      have key : c.1 = d.1 := by
        rcases Nat.lt_trichotomy c.1 d.1 with hlt | heq' | hlt
        · have h0 := heq c.1
          rw [Memory.find_cons, if_pos rfl, Memory.find_cons, if_neg (by omega),
            Memory.find_eq_none_of_lt fun e he => Nat.lt_trans hlt (hd e he)] at h0
          cases h0
        · exact heq'
        · have h0 := heq d.1
          rw [Memory.find_cons, if_neg (by omega), Memory.find_cons, if_pos rfl,
            Memory.find_eq_none_of_lt fun e he => Nat.lt_trans hlt (hc e he)] at h0
          cases h0
      have hval : c.2 = d.2 := by
        have h0 := heq c.1
        rw [Memory.find_cons, if_pos rfl, Memory.find_cons, if_pos key.symm] at h0
        exact Option.some.inj h0
      have htail : m = m' := by
        refine ih hm hm' fun a => ?_
        have h0 := heq a
        rw [Memory.find_cons, Memory.find_cons, ← key] at h0
        by_cases ha : c.1 = a
        · rw [Memory.find_eq_none_of_lt fun e he => ha ▸ hc e he,
            Memory.find_eq_none_of_lt fun e he => ha ▸ key ▸ hd e he]
        · simpa [ha] using h0
      rw [htail, Prod.ext key hval]

/-! ## Forgetting (R231) -/

theorem Memory.forgetBelow_wf {m : List (Nat × BitVec n)} (h : Memory.wf m) (b : Nat) :
    Memory.wf (Memory.forgetBelow m b) := List.Pairwise.filter _ h

theorem Memory.mem_of_mem_forgetBelow {m : List (Nat × BitVec n)} {b : Nat} {c : Nat × BitVec n}
    (h : c ∈ Memory.forgetBelow m b) : c ∈ m := List.mem_of_mem_filter h

/-- Below the bound every address is unwritten; above it nothing changes. -/
theorem Memory.find_forgetBelow (m : List (Nat × BitVec n)) (b a : Nat) :
    Memory.find (Memory.forgetBelow m b) a = if a < b then none else Memory.find m a := by
  induction m with
  | nil => simp [Memory.forgetBelow]
  | cons c m ih =>
    unfold Memory.forgetBelow at ih ⊢
    rw [Memory.find_cons]
    by_cases hb : b ≤ c.1
    · rw [List.filter_cons_of_pos (by simpa using hb), Memory.find_cons, ih]
      by_cases hc : c.1 = a
      · have : ¬ a < b := by omega
        simp [hc, this]
      · simp [hc]
    · rw [List.filter_cons_of_neg (by simpa using hb), ih]
      by_cases hc : c.1 = a
      · have : a < b := by omega
        simp [this]
      · simp [hc]

/-! ## Written regions (R66) -/

theorem Memory.writtenBelow_iff (m : List (Nat × BitVec n)) (b : Nat) :
    Memory.writtenBelow m b = true ↔ ∀ a, a < b → ∃ v, Memory.find m a = some v := by
  simp only [Memory.writtenBelow, List.all_eq_true, List.mem_range, Memory.isWritten, Option.isSome_iff_exists]

theorem Memory.writtenBelow_eq_false_iff (m : List (Nat × BitVec n)) (b : Nat) :
    Memory.writtenBelow m b = false ↔ ∃ a, a < b ∧ Memory.find m a = none := by
  rw [← Bool.not_eq_true, Memory.writtenBelow_iff]
  push Not
  refine exists_congr fun a => and_congr_right fun _ => ?_
  rw [Option.eq_none_iff_forall_ne_some]

theorem pixRead_eq {m : List Host.Cell} {a : Nat} {v : Byte} (h : Memory.find m a = some v) : pixRead m a = v := by
  rw [pixRead, h, Option.getD_some]

theorem txtRead_eq {m : List (Nat × Word)} {j : Nat} {w : Word} (h : Memory.find m j = some w) : txtRead m j = w := by
  rw [txtRead, h, Option.getD_some]

theorem pixRead_congr {m m' : List Host.Cell} {a : Nat} (h : Memory.find m a = Memory.find m' a) :
    pixRead m a = pixRead m' a := by rw [pixRead, pixRead, h]

@[simp] theorem pixRead_store_same (m : List Host.Cell) (a : Nat) (v : Byte) :
    pixRead (Memory.store m a v) a = v := pixRead_eq (Memory.find_store_same m a v)

/-! ## EXTRACT's write loop (R65) -/

theorem writeText_wf {m : List (Nat × Word)} (h : Memory.wf m) (j : Nat) (bs : List Byte) :
    Memory.wf (writeText m j bs) := by
  induction bs generalizing m j with
  | nil => exact h
  | cons b bs ih => exact ih (Memory.store_wf h j _) (j + 1)

/-- `writeText` sets words j, j+1, … to the bytes, zero-extended, and changes no other word. -/
theorem find_writeText (m : List (Nat × Word)) (j : Nat) (bs : List Byte) (a : Nat) :
    Memory.find (writeText m j bs) a =
      if j ≤ a ∧ a < j + bs.length then (bs[a - j]?).map (fun b => b.setWidth 32) else Memory.find m a := by
  induction bs generalizing m j with
  | nil =>
    have : ¬ (j ≤ a ∧ a < j + ([] : List Byte).length) := by simp
    rw [if_neg this, writeText]
  | cons b bs ih =>
    rw [writeText, ih, List.length_cons]
    by_cases h1 : j + 1 ≤ a ∧ a < j + 1 + bs.length
    · rw [if_pos h1, if_pos (by omega), show a - j = (a - (j + 1)) + 1 by omega, List.getElem?_cons_succ]
    · rw [if_neg h1, Memory.find_store]
      by_cases h2 : j = a
      · subst h2
        simp
      · rw [if_neg h2, if_neg (by omega)]

theorem mem_writeText {m : List (Nat × Word)} {j : Nat} {bs : List Byte} {c : Nat × Word}
    (h : c ∈ writeText m j bs) : c ∈ m ∨ (j ≤ c.1 ∧ c.1 < j + bs.length) := by
  induction bs generalizing m j with
  | nil => exact .inl h
  | cons b bs ih =>
    rw [List.length_cons]
    rcases ih h with h | h
    · rcases Memory.mem_of_mem_store h with rfl | h
      · exact .inr ⟨Nat.le_refl j, show j < _ by omega⟩
      · exact .inl h
    · exact .inr (by omega)

/-! ## EMBED's write loop (R170) -/

theorem embedInto_wf {m : List Host.Cell} (h : Memory.wf m) (sl : List Nat) (S : List Bool) :
    Memory.wf (embedInto m sl S) := by
  induction sl generalizing m S with
  | nil => cases S <;> exact h
  | cons a sl ih =>
    cases S with
    | nil => exact h
    | cons b S => exact ih (Memory.store_wf h a _) S

theorem mem_embedInto {m : List Host.Cell} {sl : List Nat} {S : List Bool} {c : Host.Cell}
    (h : c ∈ embedInto m sl S) : c ∈ m ∨ c.1 ∈ sl := by
  induction sl generalizing m S with
  | nil => cases S <;> exact .inl h
  | cons a sl ih =>
    cases S with
    | nil => exact .inl h
    | cons b S =>
      rcases ih h with h | h
      · rcases Memory.mem_of_mem_store h with rfl | h
        · exact .inr List.mem_cons_self
        · exact .inl h
      · exact .inr (List.mem_cons_of_mem _ h)

/-- An address outside the first `S.length` slots is not written. -/
theorem find_embedInto_of_notMem {m : List Host.Cell} {sl : List Nat} {S : List Bool} {a : Nat}
    (h : a ∉ sl.take S.length) : Memory.find (embedInto m sl S) a = Memory.find m a := by
  induction sl generalizing m S with
  | nil => cases S <;> rfl
  | cons c sl ih =>
    cases S with
    | nil => rfl
    | cons b S =>
      rw [List.length_cons, List.take_succ_cons, List.mem_cons, not_or] at h
      rw [embedInto, ih h.2, Memory.find_store_ne _ _ (Ne.symm h.1)]

/-- Slot k receives bit k, once, whatever the other slots hold. -/
theorem find_embedInto_slot {m : List Host.Cell} {sl : List Nat} {S : List Bool} (hnd : sl.Nodup)
    {k a : Nat} {b : Bool} (ha : sl[k]? = some a) (hb : S[k]? = some b) :
    Memory.find (embedInto m sl S) a = some (embedBit (pixRead m a) b) := by
  induction sl generalizing m S k with
  | nil => simp at ha
  | cons c sl ih =>
    cases S with
    | nil => simp at hb
    | cons d S =>
      obtain ⟨hc, hnd⟩ := List.nodup_cons.1 hnd
      cases k with
      | zero =>
        obtain rfl : c = a := by simpa using ha
        obtain rfl : d = b := by simpa using hb
        rw [embedInto, find_embedInto_of_notMem fun hmem => hc (List.mem_of_mem_take hmem), Memory.find_store_same]
      | succ k =>
        rw [List.getElem?_cons_succ] at ha hb
        have hne : c ≠ a := fun h => hc (h ▸ List.mem_of_getElem? ha)
        rw [embedInto, ih hnd ha hb, pixRead_congr (Memory.find_store_ne m _ hne)]

end Sys2Proof.Machine
end

