-- ==== Sys2Proof/Laws/Selector.lean ====
section
/-! SUPPORT. The laws of the pixel selector (the slots are the R, G and B bytes of the processed pixels, in rising order of
address) and of the match position. -/

namespace Sys2Proof.Machine

/-! ## Raster order -/

theorem mem_raster {W H : Nat} {p : Nat × Nat} : p ∈ raster W H ↔ p.1 < H ∧ p.2 < W := by
  simp only [raster, List.mem_flatMap, List.mem_range, List.mem_map]
  constructor
  · rintro ⟨y, hy, x, hx, rfl⟩
    exact ⟨hy, hx⟩
  · rintro ⟨hy, hx⟩
    exact ⟨p.1, hy, p.2, hx, rfl⟩

theorem raster_succ (W H : Nat) : raster W (H + 1) = raster W H ++ (List.range W).map fun x => (H, x) := by
  rw [raster, List.range_succ, List.flatMap_append, raster, List.flatMap_singleton]

@[simp] theorem length_raster (W H : Nat) : (raster W H).length = W * H := by
  induction H with
  | zero => rfl
  | succ H ih => rw [raster_succ, List.length_append, ih, List.length_map, List.length_range, Nat.mul_succ]

/-- In raster order, an earlier pixel has the smaller index y * W + x. -/
theorem raster_pairwise (W H : Nat) :
    (raster W H).Pairwise fun p q => p.1 * W + p.2 < q.1 * W + q.2 := by
  induction H with
  | zero => exact List.Pairwise.nil
  | succ H ih =>
    rw [raster_succ, List.pairwise_append]
    refine ⟨ih, ?_, ?_⟩
    · rw [List.pairwise_map]
      exact List.pairwise_lt_range.imp fun h => Nat.add_lt_add_left h _
    · intro p hp q hq
      obtain ⟨x, hx, rfl⟩ := List.mem_map.1 hq
      obtain ⟨hy, hx'⟩ := mem_raster.1 hp
      have : p.1 * W + W ≤ H * W := by
        rw [← Nat.succ_mul]
        exact Nat.mul_le_mul_right W hy
      show p.1 * W + p.2 < H * W + x
      omega

theorem pixel_index_lt {W H y x : Nat} (hy : y < H) (hx : x < W) : y * W + x < W * H := by
  have : y * W + W ≤ H * W := by
    rw [← Nat.succ_mul]
    exact Nat.mul_le_mul_right W hy
  rw [Nat.mul_comm W H]
  omega

/-- Every channel of every pixel lies in the image region (R61, R62). -/
theorem pixelAddr_lt {W H C y x c : Nat} (hy : y < H) (hx : x < W) (hc : c < C) :
    pixelAddr W C y x c < W * H * C := by
  have h1 : (y * W + x + 1) * C ≤ W * H * C := Nat.mul_le_mul_right C (pixel_index_lt hy hx)
  rw [Nat.succ_mul] at h1
  unfold pixelAddr
  omega

theorem processedCount_le (W H C : Nat) (m : List Host.Cell) : processedCount W H C m ≤ W * H := by
  rw [← length_raster W H]
  exact List.countP_le_length

/-- W, H <= 32767 bounds the number of pixels, so 3 * P does not wrap (R7). -/
theorem procPixels_le (s : State) : procPixels s ≤ 1073676289 := by
  have hW : s.width.toNat ≤ 32767 := Nat.le_of_lt_succ s.width.isLt
  have hH : s.height.toNat ≤ 32767 := Nat.le_of_lt_succ s.height.isLt
  exact (processedCount_le _ _ _ _).trans (Nat.mul_le_mul hW hH)

/-! ## Slots (R144) -/

theorem mem_pixelSlots {W C : Nat} {m : List Host.Cell} {p : Nat × Nat} {a : Nat} :
    a ∈ pixelSlots W C m p ↔ processed W C m p.1 p.2 = true ∧ ∃ c, c < 3 ∧ a = pixelAddr W C p.1 p.2 c := by
  unfold pixelSlots
  split
  · next h =>
    refine ⟨fun ha => ⟨h, ?_⟩, ?_⟩
    · rcases List.mem_cons.1 ha with rfl | ha
      · exact ⟨0, by omega, rfl⟩
      rcases List.mem_cons.1 ha with rfl | ha
      · exact ⟨1, by omega, rfl⟩
      obtain rfl := List.mem_singleton.1 ha
      exact ⟨2, by omega, rfl⟩
    · rintro ⟨-, c, hc, rfl⟩
      have : c = 0 ∨ c = 1 ∨ c = 2 := by omega
      rcases this with rfl | rfl | rfl <;> simp
  · next h => simp [h]

theorem mem_slotsOf {W H C : Nat} {m : List Host.Cell} {a : Nat} :
    a ∈ slotsOf W H C m ↔ ∃ y x c, y < H ∧ x < W ∧ c < 3 ∧ processed W C m y x = true ∧ a = pixelAddr W C y x c := by
  simp only [slotsOf, List.mem_flatMap, mem_pixelSlots, mem_raster]
  constructor
  · rintro ⟨p, ⟨hy, hx⟩, hp, c, hc, rfl⟩
    exact ⟨p.1, p.2, c, hy, hx, hc, hp, rfl⟩
  · rintro ⟨y, x, c, hy, hx, hc, hp, rfl⟩
    exact ⟨(y, x), ⟨hy, hx⟩, hp, c, hc, rfl⟩

theorem length_pixelSlots (W C : Nat) (m : List Host.Cell) (p : Nat × Nat) :
    (pixelSlots W C m p).length = if processed W C m p.1 p.2 then 3 else 0 := by
  unfold pixelSlots
  split <;> rfl

theorem length_slotsOf (W H C : Nat) (m : List Host.Cell) :
    (slotsOf W H C m).length = 3 * processedCount W H C m := by
  unfold slotsOf processedCount
  induction raster W H with
  | nil => rfl
  | cons p l ih =>
    rw [List.flatMap_cons, List.length_append, ih, length_pixelSlots, List.countP_cons]
    split <;> omega

theorem length_slots (s : State) : (slots s).length = 3 * procPixels s := length_slotsOf _ _ _ _

/-- Slot addresses rise strictly. -/
theorem slotsOf_pairwise {W H C : Nat} (hC : 3 ≤ C) (m : List Host.Cell) :
    (slotsOf W H C m).Pairwise (· < ·) := by
  unfold slotsOf
  rw [List.flatMap, List.pairwise_flatten]
  refine ⟨fun l hl => ?_, ?_⟩
  · obtain ⟨p, -, rfl⟩ := List.mem_map.1 hl
    unfold pixelSlots
    split
    · simp [pixelAddr]
    · exact List.Pairwise.nil
  · rw [List.pairwise_map]
    refine (raster_pairwise W H).imp fun {p q} hpq a ha b hb => ?_
    obtain ⟨-, c, hc, rfl⟩ := mem_pixelSlots.1 ha
    obtain ⟨-, d, hd, rfl⟩ := mem_pixelSlots.1 hb
    have h1 : (p.1 * W + p.2 + 1) * C ≤ (q.1 * W + q.2) * C := Nat.mul_le_mul_right C hpq
    rw [Nat.succ_mul] at h1
    unfold pixelAddr
    omega

theorem slotsOf_nodup {W H C : Nat} (hC : 3 ≤ C) (m : List Host.Cell) : (slotsOf W H C m).Nodup :=
  (slotsOf_pairwise hC m).imp Nat.ne_of_lt

/-- The selector reads the image region and nothing else. -/
theorem processed_congr {W H C y x : Nat} {m m' : List Host.Cell} (hC : C = 3 ∨ C = 4) (hy : y < H) (hx : x < W)
    (h : ∀ a, a < W * H * C → pixRead m a = pixRead m' a) : processed W C m y x = processed W C m' y x := by
  unfold processed
  rcases hC with rfl | rfl
  · rfl
  · rw [h _ (pixelAddr_lt hy hx (by omega)), h _ (pixelAddr_lt hy hx (by omega)), h _ (pixelAddr_lt hy hx (by omega)),
      h _ (pixelAddr_lt hy hx (by omega))]

/-- If two memories agree on which pixels are processed, they have the same slots. -/
theorem slotsOf_congr {W H C : Nat} {m m' : List Host.Cell}
    (h : ∀ y x, y < H → x < W → processed W C m y x = processed W C m' y x) : slotsOf W H C m = slotsOf W H C m' := by
  unfold slotsOf
  rw [List.flatMap, List.flatMap]
  congr 1
  refine List.map_congr_left fun p hp => ?_
  obtain ⟨hy, hx⟩ := mem_raster.1 hp
  unfold pixelSlots
  rw [h p.1 p.2 hy hx]

theorem processedCount_congr {W H C : Nat} {m m' : List Host.Cell}
    (h : ∀ y x, y < H → x < W → processed W C m y x = processed W C m' y x) :
    processedCount W H C m = processedCount W H C m' := by
  unfold processedCount
  refine List.countP_congr fun p hp => ?_
  obtain ⟨hy, hx⟩ := mem_raster.1 hp
  rw [h p.1 p.2 hy hx]

theorem slot_lt {s : State} {a : Nat} (hC : 3 ≤ imgC s) (ha : a ∈ slots s) : a < imageBytes s := by
  obtain ⟨y, x, c, hy, hx, hc, -, rfl⟩ := mem_slotsOf.1 ha
  exact pixelAddr_lt hy hx (by omega)

theorem length_recovered (s : State) : (recovered s).length = 3 * procPixels s := by
  rw [recovered, List.length_map, length_slots]

/-! ## The match position (R148) -/

/-- A match search ends at the first index at which SENT_BITS stands, if there is one. -/
theorem firstMatchFrom_cases (i : Nat) (r : List Bool) :
    (∃ p, firstMatchFrom i r = some (i + p) ∧ (r.drop p).take 40 = sentBits ∧
      ∀ q, q < p → (r.drop q).take 40 ≠ sentBits) ∨
    (firstMatchFrom i r = none ∧ ∀ q, (r.drop q).take 40 ≠ sentBits) := by
  have hprefix : ∀ l : List Bool, sentBits.isPrefixOf l = true ↔ l.take 40 = sentBits := fun l => by
    rw [List.isPrefixOf_iff_prefix, List.prefix_iff_eq_take, length_sentBits, eq_comm]
  induction r generalizing i with
  | nil =>
    refine .inr ⟨rfl, fun q h => ?_⟩
    simpa using congrArg List.length h
  | cons b r ih =>
    by_cases hb : sentBits.isPrefixOf (b :: r) = true
    · refine .inl ⟨0, ?_, (hprefix _).1 hb, fun q hq => absurd hq (Nat.not_lt_zero q)⟩
      rw [firstMatchFrom, if_pos hb, Nat.add_zero]
    · have h0 : ((b :: r).drop 0).take 40 ≠ sentBits := fun h => hb ((hprefix _).2 h)
      rcases ih (i + 1) with ⟨p, hp, hat, hlt⟩ | ⟨hn, hall⟩
      · refine .inl ⟨p + 1, ?_, hat, fun q hq => ?_⟩
        · rw [firstMatchFrom, if_neg hb, hp]
          congr 1
          omega
        · cases q with
          | zero => exact h0
          | succ q => exact hlt q (by omega)
      · refine .inr ⟨?_, fun q => ?_⟩
        · rw [firstMatchFrom, if_neg hb, hn]
        · cases q with
          | zero => exact h0
          | succ q => exact hall q

/-- A match lies inside the stream. -/
theorem firstMatch_le {r : List Bool} {p : Nat} (h : firstMatch r = some p) : p + 40 ≤ r.length := by
  rcases firstMatchFrom_cases 0 r with ⟨q, hq, hat, -⟩ | ⟨hn, -⟩
  · rw [firstMatch, hq] at h
    have hlen := congrArg List.length hat
    rw [List.length_take, List.length_drop, length_sentBits] at hlen
    have : 0 + q = p := Option.some.inj h
    omega
  · rw [firstMatch, hn] at h
    cases h

end Sys2Proof.Machine
end

