-- ==== Sys2Proof/Laws/Status.lean ====
section
/-! SUPPORT. The fields of STATUS after each named update of it. -/

namespace Sys2Proof.Machine

@[simp] theorem busyBit_packStatus (e : BitVec 4) (t f d b : Bool) : busyBit (packStatus e t f d b) = b := by
  revert e
  cases t <;> cases f <;> cases d <;> cases b <;> decide

@[simp] theorem doneBit_packStatus (e : BitVec 4) (t f d b : Bool) : doneBit (packStatus e t f d b) = d := by
  revert e
  cases t <;> cases f <;> cases d <;> cases b <;> decide

@[simp] theorem sfoundBit_packStatus (e : BitVec 4) (t f d b : Bool) : sfoundBit (packStatus e t f d b) = f := by
  revert e
  cases t <;> cases f <;> cases d <;> cases b <;> decide

@[simp] theorem truncBit_packStatus (e : BitVec 4) (t f d b : Bool) : truncBit (packStatus e t f d b) = t := by
  revert e
  cases t <;> cases f <;> cases d <;> cases b <;> decide

@[simp] theorem errField_packStatus (e : BitVec 4) (t f d b : Bool) : errField (packStatus e t f d b) = e := by
  revert e
  cases t <;> cases f <;> cases d <;> cases b <;> decide

/-- STATUS is nothing but its fields. -/
theorem status_ext {v w : BitVec 8} (hb : busyBit v = busyBit w) (hd : doneBit v = doneBit w)
    (hs : sfoundBit v = sfoundBit w) (ht : truncBit v = truncBit w) (he : errField v = errField w) : v = w := by
  have key : ∀ u : BitVec 8,
      u = packStatus (errField u) (truncBit u) (sfoundBit u) (doneBit u) (busyBit u) := by decide
  rw [key v, key w, hb, hd, hs, ht, he]

@[simp] theorem busyBit_statusCompleted (e : ErrCode) (w : BitVec 8) : busyBit (statusCompleted e w) = false := by
  simp [statusCompleted]
@[simp] theorem doneBit_statusCompleted (e : ErrCode) (w : BitVec 8) : doneBit (statusCompleted e w) = true := by
  simp [statusCompleted]
@[simp] theorem sfoundBit_statusCompleted (e : ErrCode) (w : BitVec 8) :
    sfoundBit (statusCompleted e w) = sfoundBit w := by simp [statusCompleted]
@[simp] theorem truncBit_statusCompleted (e : ErrCode) (w : BitVec 8) :
    truncBit (statusCompleted e w) = truncBit w := by simp [statusCompleted]
@[simp] theorem errField_statusCompleted (e : ErrCode) (w : BitVec 8) :
    errField (statusCompleted e w) = errCode e := by simp [statusCompleted]

@[simp] theorem busyBit_statusWithFlags (f t : Bool) (w : BitVec 8) :
    busyBit (statusWithFlags f t w) = busyBit w := by simp [statusWithFlags]
@[simp] theorem doneBit_statusWithFlags (f t : Bool) (w : BitVec 8) :
    doneBit (statusWithFlags f t w) = doneBit w := by simp [statusWithFlags]
@[simp] theorem sfoundBit_statusWithFlags (f t : Bool) (w : BitVec 8) :
    sfoundBit (statusWithFlags f t w) = f := by simp [statusWithFlags]
@[simp] theorem truncBit_statusWithFlags (f t : Bool) (w : BitVec 8) :
    truncBit (statusWithFlags f t w) = t := by simp [statusWithFlags]
@[simp] theorem errField_statusWithFlags (f t : Bool) (w : BitVec 8) :
    errField (statusWithFlags f t w) = errField w := by simp [statusWithFlags]

/-- R23: STATUS at acceptance is 0x00000001. -/
theorem statusAccepted_eq : statusAccepted = 1#8 := by decide

@[simp] theorem busyBit_statusAccepted : busyBit statusAccepted = true := by decide
@[simp] theorem doneBit_statusAccepted : doneBit statusAccepted = false := by decide
@[simp] theorem sfoundBit_statusAccepted : sfoundBit statusAccepted = false := by decide
@[simp] theorem truncBit_statusAccepted : truncBit statusAccepted = false := by decide

theorem errCode_injective {e f : ErrCode} (h : errCode e = errCode f) : e = f := by
  revert h
  cases e <;> cases f <;> decide

theorem errCode_eq_iff (e f : ErrCode) : errCode e = errCode f ↔ e = f := ⟨errCode_injective, fun h => h ▸ rfl⟩

/-- The codes are those of R200, so none is above 5. -/
theorem errCode_le (e : ErrCode) : (errCode e).toNat ≤ 5 := by cases e <;> decide

end Sys2Proof.Machine
end

