-- ==== Sys2Proof/Laws/State.lean ====
section
/-! SUPPORT. One lemma per field per named update of State, each true by `rfl`, so that no proof unfolds an update. -/

namespace Sys2Proof.Machine

/-! ## `complete` -/

@[simp] theorem complete_status (e : ErrCode) (s : State) : (complete e s).status = statusCompleted e s.status := rfl
@[simp] theorem complete_width (e : ErrCode) (s : State) : (complete e s).width = s.width := rfl
@[simp] theorem complete_height (e : ErrCode) (s : State) : (complete e s).height = s.height := rfl
@[simp] theorem complete_channels (e : ErrCode) (s : State) : (complete e s).channels = s.channels := rfl
@[simp] theorem complete_textLen (e : ErrCode) (s : State) : (complete e s).textLen = s.textLen := rfl
@[simp] theorem complete_opa (e : ErrCode) (s : State) : (complete e s).opa = s.opa := rfl
@[simp] theorem complete_opb (e : ErrCode) (s : State) : (complete e s).opb = s.opb := rfl
@[simp] theorem complete_result (e : ErrCode) (s : State) : (complete e s).result = s.result := rfl
@[simp] theorem complete_procCount (e : ErrCode) (s : State) : (complete e s).procCount = s.procCount := rfl
@[simp] theorem complete_capBits (e : ErrCode) (s : State) : (complete e s).capBits = s.capBits := rfl
@[simp] theorem complete_reqBits (e : ErrCode) (s : State) : (complete e s).reqBits = s.reqBits := rfl
@[simp] theorem complete_sentPos (e : ErrCode) (s : State) : (complete e s).sentPos = s.sentPos := rfl
@[simp] theorem complete_bitsScanned (e : ErrCode) (s : State) : (complete e s).bitsScanned = s.bitsScanned := rfl
@[simp] theorem complete_pend (e : ErrCode) (s : State) : (complete e s).pend = s.pend := rfl
@[simp] theorem complete_pix (e : ErrCode) (s : State) : (complete e s).pix = s.pix := rfl
@[simp] theorem complete_txt (e : ErrCode) (s : State) : (complete e s).txt = s.txt := rfl
@[simp] theorem complete_params (e : ErrCode) (s : State) : (complete e s).params = s.params := rfl
@[simp] theorem complete_host (e : ErrCode) (s : State) : (complete e s).host = s.host := rfl
@[simp] theorem complete_turns (e : ErrCode) (s : State) : (complete e s).turns = s.turns := rfl
@[simp] theorem complete_lastRead (e : ErrCode) (s : State) : (complete e s).lastRead = s.lastRead := rfl
@[simp] theorem complete_freeCount (e : ErrCode) (s : State) : (complete e s).freeCount = s.freeCount := rfl

/-! ## `setResult` -/

@[simp] theorem setResult_status (v : Word) (s : State) : (setResult v s).status = s.status := rfl
@[simp] theorem setResult_width (v : Word) (s : State) : (setResult v s).width = s.width := rfl
@[simp] theorem setResult_height (v : Word) (s : State) : (setResult v s).height = s.height := rfl
@[simp] theorem setResult_channels (v : Word) (s : State) : (setResult v s).channels = s.channels := rfl
@[simp] theorem setResult_textLen (v : Word) (s : State) : (setResult v s).textLen = s.textLen := rfl
@[simp] theorem setResult_opa (v : Word) (s : State) : (setResult v s).opa = s.opa := rfl
@[simp] theorem setResult_opb (v : Word) (s : State) : (setResult v s).opb = s.opb := rfl
@[simp] theorem setResult_result (v : Word) (s : State) : (setResult v s).result = v := rfl
@[simp] theorem setResult_procCount (v : Word) (s : State) : (setResult v s).procCount = s.procCount := rfl
@[simp] theorem setResult_capBits (v : Word) (s : State) : (setResult v s).capBits = s.capBits := rfl
@[simp] theorem setResult_reqBits (v : Word) (s : State) : (setResult v s).reqBits = s.reqBits := rfl
@[simp] theorem setResult_sentPos (v : Word) (s : State) : (setResult v s).sentPos = s.sentPos := rfl
@[simp] theorem setResult_bitsScanned (v : Word) (s : State) : (setResult v s).bitsScanned = s.bitsScanned := rfl
@[simp] theorem setResult_pend (v : Word) (s : State) : (setResult v s).pend = s.pend := rfl
@[simp] theorem setResult_pix (v : Word) (s : State) : (setResult v s).pix = s.pix := rfl
@[simp] theorem setResult_txt (v : Word) (s : State) : (setResult v s).txt = s.txt := rfl
@[simp] theorem setResult_params (v : Word) (s : State) : (setResult v s).params = s.params := rfl
@[simp] theorem setResult_host (v : Word) (s : State) : (setResult v s).host = s.host := rfl
@[simp] theorem setResult_turns (v : Word) (s : State) : (setResult v s).turns = s.turns := rfl
@[simp] theorem setResult_lastRead (v : Word) (s : State) : (setResult v s).lastRead = s.lastRead := rfl
@[simp] theorem setResult_freeCount (v : Word) (s : State) : (setResult v s).freeCount = s.freeCount := rfl

/-! ## `setCounts` -/

@[simp] theorem setCounts_status (p n : Nat) (s : State) : (setCounts p n s).status = s.status := rfl
@[simp] theorem setCounts_width (p n : Nat) (s : State) : (setCounts p n s).width = s.width := rfl
@[simp] theorem setCounts_height (p n : Nat) (s : State) : (setCounts p n s).height = s.height := rfl
@[simp] theorem setCounts_channels (p n : Nat) (s : State) : (setCounts p n s).channels = s.channels := rfl
@[simp] theorem setCounts_textLen (p n : Nat) (s : State) : (setCounts p n s).textLen = s.textLen := rfl
@[simp] theorem setCounts_opa (p n : Nat) (s : State) : (setCounts p n s).opa = s.opa := rfl
@[simp] theorem setCounts_opb (p n : Nat) (s : State) : (setCounts p n s).opb = s.opb := rfl
@[simp] theorem setCounts_result (p n : Nat) (s : State) : (setCounts p n s).result = s.result := rfl
@[simp] theorem setCounts_procCount (p n : Nat) (s : State) : (setCounts p n s).procCount = BitVec.ofNat 32 p := rfl
@[simp] theorem setCounts_capBits (p n : Nat) (s : State) : (setCounts p n s).capBits = BitVec.ofNat 32 (3 * p) := rfl
@[simp] theorem setCounts_reqBits (p n : Nat) (s : State) : (setCounts p n s).reqBits = BitVec.ofNat 32 (8 * (n + 5)) := rfl
@[simp] theorem setCounts_sentPos (p n : Nat) (s : State) : (setCounts p n s).sentPos = s.sentPos := rfl
@[simp] theorem setCounts_bitsScanned (p n : Nat) (s : State) : (setCounts p n s).bitsScanned = s.bitsScanned := rfl
@[simp] theorem setCounts_pend (p n : Nat) (s : State) : (setCounts p n s).pend = s.pend := rfl
@[simp] theorem setCounts_pix (p n : Nat) (s : State) : (setCounts p n s).pix = s.pix := rfl
@[simp] theorem setCounts_txt (p n : Nat) (s : State) : (setCounts p n s).txt = s.txt := rfl
@[simp] theorem setCounts_params (p n : Nat) (s : State) : (setCounts p n s).params = s.params := rfl
@[simp] theorem setCounts_host (p n : Nat) (s : State) : (setCounts p n s).host = s.host := rfl
@[simp] theorem setCounts_turns (p n : Nat) (s : State) : (setCounts p n s).turns = s.turns := rfl
@[simp] theorem setCounts_lastRead (p n : Nat) (s : State) : (setCounts p n s).lastRead = s.lastRead := rfl
@[simp] theorem setCounts_freeCount (p n : Nat) (s : State) : (setCounts p n s).freeCount = s.freeCount := rfl

/-! ## `deliver` -/

@[simp] theorem deliver_status (D0 : List Bool) (pos scanned : Nat) (found : Bool) (s : State) : (deliver D0 pos scanned found s).status = statusWithFlags found (decide (D0.length % 8 ≠ 0)) s.status := rfl
@[simp] theorem deliver_width (D0 : List Bool) (pos scanned : Nat) (found : Bool) (s : State) : (deliver D0 pos scanned found s).width = s.width := rfl
@[simp] theorem deliver_height (D0 : List Bool) (pos scanned : Nat) (found : Bool) (s : State) : (deliver D0 pos scanned found s).height = s.height := rfl
@[simp] theorem deliver_channels (D0 : List Bool) (pos scanned : Nat) (found : Bool) (s : State) : (deliver D0 pos scanned found s).channels = s.channels := rfl
@[simp] theorem deliver_textLen (D0 : List Bool) (pos scanned : Nat) (found : Bool) (s : State) : (deliver D0 pos scanned found s).textLen = BitVec.ofNat 32 (D0.length / 8) := rfl
@[simp] theorem deliver_opa (D0 : List Bool) (pos scanned : Nat) (found : Bool) (s : State) : (deliver D0 pos scanned found s).opa = s.opa := rfl
@[simp] theorem deliver_opb (D0 : List Bool) (pos scanned : Nat) (found : Bool) (s : State) : (deliver D0 pos scanned found s).opb = s.opb := rfl
@[simp] theorem deliver_result (D0 : List Bool) (pos scanned : Nat) (found : Bool) (s : State) : (deliver D0 pos scanned found s).result = s.result := rfl
@[simp] theorem deliver_procCount (D0 : List Bool) (pos scanned : Nat) (found : Bool) (s : State) : (deliver D0 pos scanned found s).procCount = s.procCount := rfl
@[simp] theorem deliver_capBits (D0 : List Bool) (pos scanned : Nat) (found : Bool) (s : State) : (deliver D0 pos scanned found s).capBits = s.capBits := rfl
@[simp] theorem deliver_reqBits (D0 : List Bool) (pos scanned : Nat) (found : Bool) (s : State) : (deliver D0 pos scanned found s).reqBits = s.reqBits := rfl
@[simp] theorem deliver_sentPos (D0 : List Bool) (pos scanned : Nat) (found : Bool) (s : State) : (deliver D0 pos scanned found s).sentPos = BitVec.ofNat 32 pos := rfl
@[simp] theorem deliver_bitsScanned (D0 : List Bool) (pos scanned : Nat) (found : Bool) (s : State) : (deliver D0 pos scanned found s).bitsScanned = BitVec.ofNat 32 scanned := rfl
@[simp] theorem deliver_pend (D0 : List Bool) (pos scanned : Nat) (found : Bool) (s : State) : (deliver D0 pos scanned found s).pend = s.pend := rfl
@[simp] theorem deliver_pix (D0 : List Bool) (pos scanned : Nat) (found : Bool) (s : State) : (deliver D0 pos scanned found s).pix = s.pix := rfl
@[simp] theorem deliver_txt (D0 : List Bool) (pos scanned : Nat) (found : Bool) (s : State) : (deliver D0 pos scanned found s).txt = writeText s.txt 0 (decodeBits (truncate8 D0)) := rfl
@[simp] theorem deliver_params (D0 : List Bool) (pos scanned : Nat) (found : Bool) (s : State) : (deliver D0 pos scanned found s).params = s.params := rfl
@[simp] theorem deliver_host (D0 : List Bool) (pos scanned : Nat) (found : Bool) (s : State) : (deliver D0 pos scanned found s).host = s.host := rfl
@[simp] theorem deliver_turns (D0 : List Bool) (pos scanned : Nat) (found : Bool) (s : State) : (deliver D0 pos scanned found s).turns = s.turns := rfl
@[simp] theorem deliver_lastRead (D0 : List Bool) (pos scanned : Nat) (found : Bool) (s : State) : (deliver D0 pos scanned found s).lastRead = s.lastRead := rfl
@[simp] theorem deliver_freeCount (D0 : List Bool) (pos scanned : Nat) (found : Bool) (s : State) : (deliver D0 pos scanned found s).freeCount = s.freeCount := rfl

/-! ## `accept` -/

@[simp] theorem accept_status (w : Word) (s : State) : (accept w s).status = statusAccepted := rfl
@[simp] theorem accept_width (w : Word) (s : State) : (accept w s).width = s.width := rfl
@[simp] theorem accept_height (w : Word) (s : State) : (accept w s).height = s.height := rfl
@[simp] theorem accept_channels (w : Word) (s : State) : (accept w s).channels = s.channels := rfl
@[simp] theorem accept_textLen (w : Word) (s : State) : (accept w s).textLen = s.textLen := rfl
@[simp] theorem accept_opa (w : Word) (s : State) : (accept w s).opa = s.opa := rfl
@[simp] theorem accept_opb (w : Word) (s : State) : (accept w s).opb = s.opb := rfl
@[simp] theorem accept_result (w : Word) (s : State) : (accept w s).result = s.result := rfl
@[simp] theorem accept_procCount (w : Word) (s : State) : (accept w s).procCount = s.procCount := rfl
@[simp] theorem accept_capBits (w : Word) (s : State) : (accept w s).capBits = s.capBits := rfl
@[simp] theorem accept_reqBits (w : Word) (s : State) : (accept w s).reqBits = s.reqBits := rfl
@[simp] theorem accept_sentPos (w : Word) (s : State) : (accept w s).sentPos = s.sentPos := rfl
@[simp] theorem accept_bitsScanned (w : Word) (s : State) : (accept w s).bitsScanned = s.bitsScanned := rfl
@[simp] theorem accept_pend (w : Word) (s : State) : (accept w s).pend = w := rfl
@[simp] theorem accept_pix (w : Word) (s : State) : (accept w s).pix = s.pix := rfl
@[simp] theorem accept_txt (w : Word) (s : State) : (accept w s).txt = s.txt := rfl
@[simp] theorem accept_params (w : Word) (s : State) : (accept w s).params = s.params := rfl
@[simp] theorem accept_host (w : Word) (s : State) : (accept w s).host = s.host := rfl
@[simp] theorem accept_turns (w : Word) (s : State) : (accept w s).turns = s.turns := rfl
@[simp] theorem accept_lastRead (w : Word) (s : State) : (accept w s).lastRead = s.lastRead := rfl
@[simp] theorem accept_freeCount (w : Word) (s : State) : (accept w s).freeCount = s.freeCount := rfl

/-! ## `returnValue` -/

@[simp] theorem returnValue_status (v : Word) (s : State) : (returnValue v s).status = s.status := rfl
@[simp] theorem returnValue_width (v : Word) (s : State) : (returnValue v s).width = s.width := rfl
@[simp] theorem returnValue_height (v : Word) (s : State) : (returnValue v s).height = s.height := rfl
@[simp] theorem returnValue_channels (v : Word) (s : State) : (returnValue v s).channels = s.channels := rfl
@[simp] theorem returnValue_textLen (v : Word) (s : State) : (returnValue v s).textLen = s.textLen := rfl
@[simp] theorem returnValue_opa (v : Word) (s : State) : (returnValue v s).opa = s.opa := rfl
@[simp] theorem returnValue_opb (v : Word) (s : State) : (returnValue v s).opb = s.opb := rfl
@[simp] theorem returnValue_result (v : Word) (s : State) : (returnValue v s).result = s.result := rfl
@[simp] theorem returnValue_procCount (v : Word) (s : State) : (returnValue v s).procCount = s.procCount := rfl
@[simp] theorem returnValue_capBits (v : Word) (s : State) : (returnValue v s).capBits = s.capBits := rfl
@[simp] theorem returnValue_reqBits (v : Word) (s : State) : (returnValue v s).reqBits = s.reqBits := rfl
@[simp] theorem returnValue_sentPos (v : Word) (s : State) : (returnValue v s).sentPos = s.sentPos := rfl
@[simp] theorem returnValue_bitsScanned (v : Word) (s : State) : (returnValue v s).bitsScanned = s.bitsScanned := rfl
@[simp] theorem returnValue_pend (v : Word) (s : State) : (returnValue v s).pend = s.pend := rfl
@[simp] theorem returnValue_pix (v : Word) (s : State) : (returnValue v s).pix = s.pix := rfl
@[simp] theorem returnValue_txt (v : Word) (s : State) : (returnValue v s).txt = s.txt := rfl
@[simp] theorem returnValue_params (v : Word) (s : State) : (returnValue v s).params = s.params := rfl
@[simp] theorem returnValue_host (v : Word) (s : State) : (returnValue v s).host = s.host := rfl
@[simp] theorem returnValue_turns (v : Word) (s : State) : (returnValue v s).turns = s.turns := rfl
@[simp] theorem returnValue_lastRead (v : Word) (s : State) : (returnValue v s).lastRead = some v := rfl
@[simp] theorem returnValue_freeCount (v : Word) (s : State) : (returnValue v s).freeCount = s.freeCount := rfl

/-! ## `returnFreeWord` -/

@[simp] theorem returnFreeWord_status (s : State) : (returnFreeWord s).status = s.status := rfl
@[simp] theorem returnFreeWord_width (s : State) : (returnFreeWord s).width = s.width := rfl
@[simp] theorem returnFreeWord_height (s : State) : (returnFreeWord s).height = s.height := rfl
@[simp] theorem returnFreeWord_channels (s : State) : (returnFreeWord s).channels = s.channels := rfl
@[simp] theorem returnFreeWord_textLen (s : State) : (returnFreeWord s).textLen = s.textLen := rfl
@[simp] theorem returnFreeWord_opa (s : State) : (returnFreeWord s).opa = s.opa := rfl
@[simp] theorem returnFreeWord_opb (s : State) : (returnFreeWord s).opb = s.opb := rfl
@[simp] theorem returnFreeWord_result (s : State) : (returnFreeWord s).result = s.result := rfl
@[simp] theorem returnFreeWord_procCount (s : State) : (returnFreeWord s).procCount = s.procCount := rfl
@[simp] theorem returnFreeWord_capBits (s : State) : (returnFreeWord s).capBits = s.capBits := rfl
@[simp] theorem returnFreeWord_reqBits (s : State) : (returnFreeWord s).reqBits = s.reqBits := rfl
@[simp] theorem returnFreeWord_sentPos (s : State) : (returnFreeWord s).sentPos = s.sentPos := rfl
@[simp] theorem returnFreeWord_bitsScanned (s : State) : (returnFreeWord s).bitsScanned = s.bitsScanned := rfl
@[simp] theorem returnFreeWord_pend (s : State) : (returnFreeWord s).pend = s.pend := rfl
@[simp] theorem returnFreeWord_pix (s : State) : (returnFreeWord s).pix = s.pix := rfl
@[simp] theorem returnFreeWord_txt (s : State) : (returnFreeWord s).txt = s.txt := rfl
@[simp] theorem returnFreeWord_params (s : State) : (returnFreeWord s).params = s.params := rfl
@[simp] theorem returnFreeWord_host (s : State) : (returnFreeWord s).host = s.host := rfl
@[simp] theorem returnFreeWord_turns (s : State) : (returnFreeWord s).turns = s.turns := rfl
@[simp] theorem returnFreeWord_lastRead (s : State) : (returnFreeWord s).lastRead = some (Config.freeWord s.freeCount) := rfl
@[simp] theorem returnFreeWord_freeCount (s : State) : (returnFreeWord s).freeCount = s.freeCount + 1 := rfl

/-! ## `returnFreeByte` -/

@[simp] theorem returnFreeByte_status (s : State) : (returnFreeByte s).status = s.status := rfl
@[simp] theorem returnFreeByte_width (s : State) : (returnFreeByte s).width = s.width := rfl
@[simp] theorem returnFreeByte_height (s : State) : (returnFreeByte s).height = s.height := rfl
@[simp] theorem returnFreeByte_channels (s : State) : (returnFreeByte s).channels = s.channels := rfl
@[simp] theorem returnFreeByte_textLen (s : State) : (returnFreeByte s).textLen = s.textLen := rfl
@[simp] theorem returnFreeByte_opa (s : State) : (returnFreeByte s).opa = s.opa := rfl
@[simp] theorem returnFreeByte_opb (s : State) : (returnFreeByte s).opb = s.opb := rfl
@[simp] theorem returnFreeByte_result (s : State) : (returnFreeByte s).result = s.result := rfl
@[simp] theorem returnFreeByte_procCount (s : State) : (returnFreeByte s).procCount = s.procCount := rfl
@[simp] theorem returnFreeByte_capBits (s : State) : (returnFreeByte s).capBits = s.capBits := rfl
@[simp] theorem returnFreeByte_reqBits (s : State) : (returnFreeByte s).reqBits = s.reqBits := rfl
@[simp] theorem returnFreeByte_sentPos (s : State) : (returnFreeByte s).sentPos = s.sentPos := rfl
@[simp] theorem returnFreeByte_bitsScanned (s : State) : (returnFreeByte s).bitsScanned = s.bitsScanned := rfl
@[simp] theorem returnFreeByte_pend (s : State) : (returnFreeByte s).pend = s.pend := rfl
@[simp] theorem returnFreeByte_pix (s : State) : (returnFreeByte s).pix = s.pix := rfl
@[simp] theorem returnFreeByte_txt (s : State) : (returnFreeByte s).txt = s.txt := rfl
@[simp] theorem returnFreeByte_params (s : State) : (returnFreeByte s).params = s.params := rfl
@[simp] theorem returnFreeByte_host (s : State) : (returnFreeByte s).host = s.host := rfl
@[simp] theorem returnFreeByte_turns (s : State) : (returnFreeByte s).turns = s.turns := rfl
@[simp] theorem returnFreeByte_lastRead (s : State) : (returnFreeByte s).lastRead = some ((Config.freeByte s.freeCount).setWidth 32) := rfl
@[simp] theorem returnFreeByte_freeCount (s : State) : (returnFreeByte s).freeCount = s.freeCount + 1 := rfl

/-! ## `platformReset` (R230, R231) -/

@[simp] theorem platformReset_status (s : State) : (platformReset s).status = 0 := rfl
@[simp] theorem platformReset_width (s : State) : (platformReset s).width = 0 := rfl
@[simp] theorem platformReset_height (s : State) : (platformReset s).height = 0 := rfl
@[simp] theorem platformReset_channels (s : State) : (platformReset s).channels = 0 := rfl
@[simp] theorem platformReset_textLen (s : State) : (platformReset s).textLen = 0 := rfl
@[simp] theorem platformReset_opa (s : State) : (platformReset s).opa = 0 := rfl
@[simp] theorem platformReset_opb (s : State) : (platformReset s).opb = 0 := rfl
@[simp] theorem platformReset_result (s : State) : (platformReset s).result = 0 := rfl
@[simp] theorem platformReset_procCount (s : State) : (platformReset s).procCount = 0 := rfl
@[simp] theorem platformReset_capBits (s : State) : (platformReset s).capBits = 0 := rfl
@[simp] theorem platformReset_reqBits (s : State) : (platformReset s).reqBits = 0 := rfl
@[simp] theorem platformReset_sentPos (s : State) : (platformReset s).sentPos = 0 := rfl
@[simp] theorem platformReset_bitsScanned (s : State) : (platformReset s).bitsScanned = 0 := rfl
@[simp] theorem platformReset_pend (s : State) : (platformReset s).pend = 0 := rfl
@[simp] theorem platformReset_params (s : State) : (platformReset s).params = s.params := rfl
@[simp] theorem platformReset_host (s : State) : (platformReset s).host = s.host := rfl
@[simp] theorem platformReset_turns (s : State) : (platformReset s).turns = s.turns := rfl
@[simp] theorem platformReset_lastRead (s : State) : (platformReset s).lastRead = s.lastRead := rfl
@[simp] theorem platformReset_freeCount (s : State) : (platformReset s).freeCount = s.freeCount := rfl
theorem platformReset_pix (s : State) : (platformReset s).pix =
    if isBusy s then Memory.forgetBelow s.pix (imageBytes s) else s.pix := rfl
theorem platformReset_txt (s : State) : (platformReset s).txt =
    if isBusy s then Memory.forgetBelow s.txt (textSize s) else s.txt := rfl

@[simp] theorem isBusy_accept (w : Word) (s : State) : isBusy (accept w s) = true := by
  rw [isBusy, accept_status, busyBit_statusAccepted]
@[simp] theorem isBusy_complete (e : ErrCode) (s : State) : isBusy (complete e s) = false := by
  rw [isBusy, complete_status, busyBit_statusCompleted]
@[simp] theorem isBusy_platformReset (s : State) : isBusy (platformReset s) = false := by
  show busyBit 0 = false
  decide

/-- Memory right after power-on is in canonical form. -/
theorem powerOn_memory_wf (p : Params) : Memory.wf (State.powerOn p).pix ∧ Memory.wf (State.powerOn p).txt :=
  ⟨List.Pairwise.nil, List.Pairwise.nil⟩

/-! ## The operand readers see none of the completion's writes -/

@[simp] theorem imgW_complete (e : ErrCode) (s : State) : imgW (complete e s) = imgW s := rfl
@[simp] theorem imgH_complete (e : ErrCode) (s : State) : imgH (complete e s) = imgH s := rfl
@[simp] theorem imgC_complete (e : ErrCode) (s : State) : imgC (complete e s) = imgC s := rfl
@[simp] theorem textCount_complete (e : ErrCode) (s : State) : textCount (complete e s) = textCount s := rfl
@[simp] theorem imageBytes_complete (e : ErrCode) (s : State) : imageBytes (complete e s) = imageBytes s := rfl
@[simp] theorem pixSize_complete (e : ErrCode) (s : State) : pixSize (complete e s) = pixSize s := rfl
@[simp] theorem textSize_complete (e : ErrCode) (s : State) : textSize (complete e s) = textSize s := rfl
@[simp] theorem channelOperand_complete (e : ErrCode) (s : State) : channelOperand (complete e s) = channelOperand s := rfl
@[simp] theorem payloadBitOperand_complete (e : ErrCode) (s : State) : payloadBitOperand (complete e s) = payloadBitOperand s := rfl
@[simp] theorem indexOperand_complete (e : ErrCode) (s : State) : indexOperand (complete e s) = indexOperand s := rfl
@[simp] theorem windowOperand_complete (e : ErrCode) (s : State) : windowOperand (complete e s) = windowOperand s := rfl
@[simp] theorem imageWritten_complete (e : ErrCode) (s : State) : imageWritten (complete e s) = imageWritten s := rfl
@[simp] theorem textWritten_complete (e : ErrCode) (s : State) : textWritten (complete e s) = textWritten s := rfl
@[simp] theorem payload_complete (e : ErrCode) (s : State) : payload (complete e s) = payload s := rfl
@[simp] theorem slots_complete (e : ErrCode) (s : State) : slots (complete e s) = slots s := rfl
@[simp] theorem procPixels_complete (e : ErrCode) (s : State) : procPixels (complete e s) = procPixels s := rfl
@[simp] theorem payloadFits_complete (e : ErrCode) (s : State) : payloadFits (complete e s) = payloadFits s := rfl
@[simp] theorem recovered_complete (e : ErrCode) (s : State) : recovered (complete e s) = recovered s := rfl

end Sys2Proof.Machine
end

