-- ==== Sys2Proof/Laws/Exec.lean ====
section
/-! SUPPORT. One inversion lemma per command: everything it can do when it answers a next state, and when it faults. -/

namespace Sys2Proof.Machine

theorem raise_eq (e : ErrCode) (s : State) : raise e s = .next (complete e s) := rfl
theorem finish_eq (s : State) : finish s = .next (complete .none s) := rfl

@[simp] theorem raise_eq_next {e : ErrCode} {s t : State} : raise e s = .next t ↔ t = complete e s := by
  rw [raise_eq]
  exact ⟨fun h => (Host.Outcome.next.inj h).symm, fun h => h ▸ rfl⟩

@[simp] theorem finish_eq_next {s t : State} : finish s = .next t ↔ t = complete .none s := raise_eq_next

/-- The payload fits exactly when its bits do not exceed the slots (R147). -/
theorem payloadFits_iff (s : State) : payloadFits s = true ↔ 8 * (textCount s + 5) ≤ 3 * procPixels s := by
  simp [payloadFits]

theorem imageWritten_iff (s : State) :
    imageWritten s = true ↔ ∀ a, a < imageBytes s → ∃ v, Memory.find s.pix a = some v :=
  Memory.writtenBelow_iff _ _

theorem textWritten_iff (s : State) :
    textWritten s = true ↔ ∀ j, j < textCount s → ∃ w, Memory.find s.txt j = some w :=
  Memory.writtenBelow_iff _ _

@[simp] theorem length_payload (s : State) : (payload s).length = textCount s := by simp [payload]

theorem getElem?_payload {s : State} {j : Nat} (h : j < textCount s) : (payload s)[j]? = some (txtRead s.txt j) := by
  simp [payload, h]

/-- The CONFIG check of a command that reads C leaves only C = 3 and C = 4. -/
theorem channels_of_configError {i : Instr} {s : State} (hi : checksChannels i = true)
    (h : configError i s = false) : imgC s = 3 ∨ imgC s = 4 := by
  simp only [configError, Bool.or_eq_false_iff, hi, Bool.true_and] at h
  have h3 := h.1.1.1
  simp only [Bool.not_eq_false', Bool.or_eq_true, decide_eq_true_eq] at h3
  exact h3

/-! ## The primitive commands -/

theorem execChanEmbed_eq (s : State) : execChanEmbed s =
    .next (complete .none (setResult ((embedBit (channelOperand s) (payloadBitOperand s)).setWidth 32) s)) := rfl

theorem execChanExtract_eq (s : State) : execChanExtract s =
    .next (complete .none (setResult ((BitVec.ofBool (extractBit (channelOperand s))).setWidth 32) s)) := rfl

theorem execSentMatch_eq (s : State) : execSentMatch s =
    .next (complete .none (setResult (if windowOperand s = sentWord then 1 else 0) s)) := rfl

theorem execPixSelect_cases (s : State) :
    (configError .pixSelect s = true ∧ execPixSelect s = .next (complete .config s)) ∨
    (imgC s = 3 ∧ execPixSelect s = .next (complete .none (setResult 1 s))) ∨
    (imgC s = 4 ∧ execPixSelect s = .next (complete .none (setResult
      (if allNonzero (redOperand s) (greenOperand s) (blueOperand s) (alphaOperand s) then 1 else 0) s))) := by
  unfold execPixSelect
  by_cases hc : configError .pixSelect s = true
  · exact .inl ⟨hc, if_pos hc⟩
  · rw [if_neg hc]
    rcases channels_of_configError (i := .pixSelect) rfl (by simpa using hc) with h | h
    · exact .inr (.inl ⟨h, if_pos h⟩)
    · exact .inr (.inr ⟨h, if_neg (by omega)⟩)

theorem execSerByte_cases (s : State) :
    (configError .serByte s = true ∧ execSerByte s = .next (complete .config s)) ∨
    (configError .serByte s = false ∧ textCount s + 5 ≤ indexOperand s ∧
      execSerByte s = .next (complete .range s)) ∨
    (configError .serByte s = false ∧ indexOperand s < textCount s ∧ Memory.find s.txt (indexOperand s) = none ∧
      execSerByte s = .fault .uninit) ∨
    (configError .serByte s = false ∧ indexOperand s < textCount s ∧
      ∃ w, Memory.find s.txt (indexOperand s) = some w ∧ 256 ≤ w.toNat ∧
        execSerByte s = .next (complete .encoding s)) ∨
    (configError .serByte s = false ∧ indexOperand s < textCount s ∧
      ∃ w, Memory.find s.txt (indexOperand s) = some w ∧ w.toNat < 256 ∧
        execSerByte s = .next (complete .none (setResult w s))) ∨
    (configError .serByte s = false ∧ textCount s ≤ indexOperand s ∧
      ∃ b, sent[indexOperand s - textCount s]? = some b ∧
        execSerByte s = .next (complete .none (setResult (b.setWidth 32) s))) := by
  by_cases hc : configError .serByte s = true
  · exact .inl ⟨hc, by rw [execSerByte, if_pos hc, raise_eq]⟩
  have hc' : configError .serByte s = false := by simpa using hc
  by_cases hr : textCount s + 5 ≤ indexOperand s
  · exact .inr (.inl ⟨hc', hr, by rw [execSerByte, if_neg hc, if_pos hr, raise_eq]⟩)
  by_cases hj : indexOperand s < textCount s
  · cases hf : Memory.find s.txt (indexOperand s) with
    | none =>
      refine .inr (.inr (.inl ⟨hc', hj, rfl, ?_⟩))
      rw [execSerByte, if_neg hc, if_neg hr, if_pos hj, hf]
    | some w =>
      have hexec : execSerByte s =
          if fitsByte w then finish (setResult ((lowByte w).setWidth 32) s) else raise .encoding s := by
        rw [execSerByte, if_neg hc, if_neg hr, if_pos hj, hf]
      by_cases hw : w.toNat < 256
      · refine .inr (.inr (.inr (.inr (.inl ⟨hc', hj, w, rfl, hw, ?_⟩))))
        rw [hexec, if_pos (by simpa [fitsByte] using hw), setWidth_lowByte hw, finish_eq]
      · refine .inr (.inr (.inr (.inl ⟨hc', hj, w, rfl, by omega, ?_⟩)))
        rw [hexec, if_neg (by simpa [fitsByte] using hw), raise_eq]
  · have hlt : indexOperand s - textCount s < sent.length := by
      rw [length_sent]
      omega
    refine .inr (.inr (.inr (.inr (.inr ⟨hc', by omega, _, List.getElem?_eq_getElem hlt, ?_⟩))))
    rw [execSerByte, if_neg hc, if_neg hr, if_neg hj, List.getElem?_eq_getElem hlt]
    rfl

theorem execCapacity_cases (s : State) :
    (configError .capacity s = true ∧ execCapacity s = .next (complete .config s)) ∨
    (configError .capacity s = false ∧ imageWritten s = false ∧ execCapacity s = .fault .uninit) ∨
    (configError .capacity s = false ∧ imageWritten s = true ∧ execCapacity s = .next (complete .none
      (setResult (if payloadFits s then 1 else 0) (setCounts (procPixels s) (textCount s) s)))) := by
  unfold execCapacity
  by_cases hc : configError .capacity s = true
  · exact .inl ⟨hc, if_pos hc⟩
  · rw [if_neg hc]
    cases hi : imageWritten s with
    | false => exact .inr (.inl ⟨by simpa using hc, rfl, rfl⟩)
    | true => exact .inr (.inr ⟨by simpa using hc, rfl, rfl⟩)

/-! ## The whole-buffer operations -/

theorem execEmbed_cases (s : State) :
    (configError .embed s = true ∧ execEmbed s = .next (complete .config s)) ∨
    (configError .embed s = false ∧ textWritten s = false ∧ execEmbed s = .fault .uninit) ∨
    (configError .embed s = false ∧ textWritten s = true ∧ encodeText (payload s) = none ∧
      execEmbed s = .next (complete .encoding s)) ∨
    ∃ S, configError .embed s = false ∧ textWritten s = true ∧ encodeText (payload s) = some S ∧
      ((imageWritten s = false ∧ execEmbed s = .fault .uninit) ∨
       (imageWritten s = true ∧ payloadFits s = false ∧
          execEmbed s = .next (complete .capacity (setCounts (procPixels s) (textCount s) s))) ∨
       (imageWritten s = true ∧ payloadFits s = true ∧ execEmbed s = .next (complete .none
          { setCounts (procPixels s) (textCount s) s with pix := embedInto s.pix (slots s) S }))) := by
  by_cases hc : configError .embed s = true
  · exact .inl ⟨hc, by rw [execEmbed, if_pos hc, raise_eq]⟩
  have hc' : configError .embed s = false := by simpa using hc
  by_cases ht : textWritten s = true
  · cases he : encodeText (payload s) with
    | none =>
      refine .inr (.inr (.inl ⟨hc', ht, rfl, ?_⟩))
      rw [execEmbed, if_neg hc, if_neg (by simp [ht]), he]
      rfl
    | some S =>
      refine .inr (.inr (.inr ⟨S, hc', ht, rfl, ?_⟩))
      have hexec : execEmbed s = if !imageWritten s then .fault .uninit
          else if !payloadFits s then raise .capacity (setCounts (procPixels s) (textCount s) s)
          else finish { setCounts (procPixels s) (textCount s) s with pix := embedInto s.pix (slots s) S } := by
        rw [execEmbed, if_neg hc, if_neg (by simp [ht]), he]
      rw [hexec]
      cases hi : imageWritten s with
      | false => exact .inl ⟨rfl, rfl⟩
      | true =>
        cases hp : payloadFits s with
        | false => exact .inr (.inl ⟨rfl, rfl, rfl⟩)
        | true => exact .inr (.inr ⟨rfl, rfl, rfl⟩)
  · have ht' : textWritten s = false := by simpa using ht
    exact .inr (.inl ⟨hc', ht', by rw [execEmbed, if_neg hc, if_pos (by simp [ht'])]⟩)

theorem execExtract_cases (s : State) :
    (configError .extract s = true ∧ execExtract s = .next (complete .config s)) ∨
    (configError .extract s = false ∧ imageWritten s = false ∧ execExtract s = .fault .uninit) ∨
    (configError .extract s = false ∧ imageWritten s = true ∧ ∃ p, firstMatch (recovered s) = some p ∧
      execExtract s = .next (complete .none (deliver ((recovered s).take p) p (p + 40) true s))) ∨
    (configError .extract s = false ∧ imageWritten s = true ∧ firstMatch (recovered s) = none ∧
      execExtract s = .next (complete .none (deliver (recovered s) 0 (recovered s).length false s))) := by
  by_cases hc : configError .extract s = true
  · exact .inl ⟨hc, by rw [execExtract, if_pos hc, raise_eq]⟩
  have hc' : configError .extract s = false := by simpa using hc
  by_cases hi : imageWritten s = true
  · cases hm : firstMatch (recovered s) with
    | none =>
      refine .inr (.inr (.inr ⟨hc', hi, rfl, ?_⟩))
      rw [execExtract, if_neg hc, if_neg (by simp [hi]), hm]
      rfl
    | some p =>
      refine .inr (.inr (.inl ⟨hc', hi, p, rfl, ?_⟩))
      rw [execExtract, if_neg hc, if_neg (by simp [hi]), hm]
      rfl
  · have hi' : imageWritten s = false := by simpa using hi
    exact .inr (.inl ⟨hc', hi', by rw [execExtract, if_neg hc, if_pos (by simp [hi'])]⟩)

/-- No command is refused: each answers a next state or the model's fault UNINIT. -/
theorem exec_ne_refused (i : Instr) (s : State) (r : Refusal) : exec i s ≠ .refused r := by
  cases i with
  | embed =>
    show execEmbed s ≠ _
    rcases execEmbed_cases s with ⟨-, h⟩ | ⟨-, -, h⟩ | ⟨-, -, -, h⟩ | ⟨S, -, -, -, ⟨-, h⟩ | ⟨-, -, h⟩ | ⟨-, -, h⟩⟩ <;>
      rw [h] <;> exact nofun
  | extract =>
    show execExtract s ≠ _
    rcases execExtract_cases s with ⟨-, h⟩ | ⟨-, -, h⟩ | ⟨-, -, p, -, h⟩ | ⟨-, -, -, h⟩ <;>
      rw [h] <;> exact nofun
  | capacity =>
    show execCapacity s ≠ _
    rcases execCapacity_cases s with ⟨-, h⟩ | ⟨-, -, h⟩ | ⟨-, -, h⟩ <;> rw [h] <;> exact nofun
  | serByte =>
    show execSerByte s ≠ _
    rcases execSerByte_cases s with ⟨-, h⟩ | ⟨-, -, h⟩ | ⟨-, -, -, h⟩ | ⟨-, -, w, -, -, h⟩ | ⟨-, -, w, -, -, h⟩ |
      ⟨-, -, b, -, h⟩ <;> rw [h] <;> exact nofun
  | chanEmbed => exact nofun
  | chanExtract => exact nofun
  | pixSelect =>
    show execPixSelect s ≠ _
    rcases execPixSelect_cases s with ⟨-, h⟩ | ⟨-, h⟩ | ⟨-, h⟩ <;> rw [h] <;> exact nofun
  | sentMatch => exact nofun

end Sys2Proof.Machine
end

