-- ==== Sys2Proof/Laws/Step.lean ====
section
/-! SUPPORT. What one step, one engine move and one host move can do. -/

namespace Sys2Proof.Machine

theorem engineMove_of_busy {s : State} (h : isBusy s = true) : engineMove s = completion s := if_pos h

theorem engineMove_of_idle {s : State} (h : isBusy s = false) : engineMove s = .next s := if_neg (by simp [h])

/-- Which move a step is. -/
theorem step_cases (s : State) :
    (s.turns = [] ∧ isBusy s = true ∧ step s = completion s) ∨
    (s.turns = [] ∧ isBusy s = false ∧ step s = hostMove s) ∨
    (∃ ts, s.turns = .host :: ts ∧ step s = hostMove { s with turns := ts }) ∨
    (∃ ts, s.turns = .engine :: ts ∧ isBusy s = true ∧ step s = completion { s with turns := ts }) ∨
    (∃ ts, s.turns = .engine :: ts ∧ isBusy s = false ∧ step s = .next { s with turns := ts }) ∨
    (∃ ts, s.turns = .reset :: ts ∧ step s = .next (platformReset { s with turns := ts })) := by
  have hmove : ∀ ts, isBusy { s with turns := ts } = isBusy s := fun _ => rfl
  unfold step
  cases hts : s.turns with
  | nil =>
    cases hb : isBusy s with
    | true =>
      exact .inl ⟨rfl, rfl, engineMove_of_busy hb⟩
    | false => exact .inr (.inl ⟨rfl, rfl, rfl⟩)
  | cons t ts =>
    cases t with
    | host => exact .inr (.inr (.inl ⟨ts, rfl, rfl⟩))
    | reset => exact .inr (.inr (.inr (.inr (.inr ⟨ts, rfl, rfl⟩))))
    | engine =>
      cases hb : isBusy s with
      | true =>
        exact .inr (.inr (.inr (.inl ⟨ts, rfl, rfl, engineMove_of_busy ((hmove ts).trans hb)⟩)))
      | false =>
        exact .inr (.inr (.inr (.inr (.inl ⟨ts, rfl, rfl, engineMove_of_idle ((hmove ts).trans hb)⟩))))

/-- The completion: a legal word runs, an illegal one raises ILLEGAL. -/
theorem completion_cases (s : State) :
    (∃ i, decode s.pend = .ok i ∧ completion s = exec i s) ∨
    (∃ e, decode s.pend = .error e ∧ completion s = .next (complete .illegal s)) := by
  unfold completion
  cases h : decode s.pend with
  | ok i => exact .inl ⟨i, rfl, rfl⟩
  | error e => exact .inr ⟨e, rfl, rfl⟩

theorem hostMove_nil {s : State} (h : s.host = []) : hostMove s = .next s := by rw [hostMove, h]

theorem hostMove_cons {s : State} {op : HostOp} {rest : List HostOp} (h : s.host = op :: rest) :
    hostMove s = hostOp op { s with host := rest } := by rw [hostMove, h]

/-- What a host move does to the engine: nothing but one of these. -/
theorem hostOp_cases (op : HostOp) (s : State) :
    (∃ r, hostOp op s = .refused r) ∨
    (∃ u, hostOp op s = .next u ∧
      ((∃ v, u = returnValue v s) ∨ u = returnFreeWord s ∨ u = returnFreeByte s ∨
       (∃ v, u = { returnValue v s with host := .wait :: s.host }) ∨
       u = s ∨
       (isBusy s = false ∧ ∃ r v, u = writeReg r v s) ∨
       (isBusy s = false ∧ ∃ a v, a < pixSize s ∧ u = { s with pix := Memory.store s.pix a v }) ∨
       (isBusy s = false ∧ ∃ j v, j < textSize s ∧ u = { s with txt := Memory.store s.txt j v }))) := by
  cases op with
  | regWrite off b v =>
    show (∃ r, hostRegWrite off b v s = _) ∨ ∃ u, hostRegWrite off b v s = _ ∧ _
    unfold hostRegWrite
    split
    · split
      · exact .inr ⟨s, rfl, by tauto⟩
      · next r _ =>
        split
        · exact .inr ⟨s, rfl, by tauto⟩
        · next hb => exact .inr ⟨_, rfl, .inr (.inr (.inr (.inr (.inr (.inl ⟨by simpa using hb, r, v, rfl⟩)))))⟩
    · exact .inl ⟨_, rfl⟩
  | regRead off b =>
    show (∃ r, hostRegRead off b s = _) ∨ ∃ u, hostRegRead off b s = _ ∧ _
    unfold hostRegRead
    split
    · split
      · exact .inr ⟨_, rfl, .inl ⟨_, rfl⟩⟩
      · split
        · exact .inr ⟨_, rfl, .inr (.inl rfl)⟩
        · exact .inr ⟨_, rfl, .inl ⟨_, rfl⟩⟩
    · exact .inl ⟨_, rfl⟩
  | pixWrite a v =>
    show (∃ r, hostPixWrite a v s = _) ∨ ∃ u, hostPixWrite a v s = _ ∧ _
    unfold hostPixWrite
    split
    · exact .inl ⟨_, rfl⟩
    · next hb =>
      split
      · next ha =>
        exact .inr ⟨_, rfl, .inr (.inr (.inr (.inr (.inr (.inr (.inl ⟨by simpa using hb, a, v, ha, rfl⟩))))))⟩
      · exact .inr ⟨s, rfl, by tauto⟩
  | pixRead a =>
    show (∃ r, hostPixRead a s = _) ∨ ∃ u, hostPixRead a s = _ ∧ _
    unfold hostPixRead
    split
    · exact .inl ⟨_, rfl⟩
    · split
      · split
        · exact .inr ⟨_, rfl, .inl ⟨_, rfl⟩⟩
        · exact .inr ⟨_, rfl, .inr (.inr (.inl rfl))⟩
      · exact .inr ⟨_, rfl, .inl ⟨_, rfl⟩⟩
  | txtWrite j v =>
    show (∃ r, hostTxtWrite j v s = _) ∨ ∃ u, hostTxtWrite j v s = _ ∧ _
    unfold hostTxtWrite
    split
    · exact .inl ⟨_, rfl⟩
    · next hb =>
      split
      · next ha =>
        exact .inr ⟨_, rfl, .inr (.inr (.inr (.inr (.inr (.inr (.inr ⟨by simpa using hb, j, v, ha, rfl⟩))))))⟩
      · exact .inr ⟨s, rfl, by tauto⟩
  | txtRead j =>
    show (∃ r, hostTxtRead j s = _) ∨ ∃ u, hostTxtRead j s = _ ∧ _
    unfold hostTxtRead
    split
    · exact .inl ⟨_, rfl⟩
    · split
      · split
        · exact .inr ⟨_, rfl, .inl ⟨_, rfl⟩⟩
        · exact .inr ⟨_, rfl, .inr (.inl rfl)⟩
      · exact .inr ⟨_, rfl, .inl ⟨_, rfl⟩⟩
  | wait =>
    show (∃ r, hostWait s = _) ∨ ∃ u, hostWait s = _ ∧ _
    unfold hostWait
    split
    · exact .inr ⟨_, rfl, .inl ⟨_, rfl⟩⟩
    · exact .inr ⟨_, rfl, .inr (.inr (.inr (.inl ⟨_, rfl⟩)))⟩

/-- A run goes on from the state a step ends in. -/
theorem run_succ_of_next {s t : State} (k : Nat) (h : step s = .next t) :
    Host.Core.run Sys2Proof.core (k + 1) s = Host.Core.run Sys2Proof.core k t := by
  have hrun : ∀ (M : Host.Core) (u v : M.State), M.step u = .next v → M.run (k + 1) u = M.run k v := fun M u v hu => by
    rw [Host.Core.run, hu]
  exact hrun Sys2Proof.core s t h

/-- A fault ends a run. -/
theorem run_succ_of_fault {s : State} {f : Fault} (k : Nat) (h : step s = .fault f) :
    Host.Core.run Sys2Proof.core (k + 1) s = .fault f := by
  have hrun : ∀ (M : Host.Core) (u : M.State) (g : M.Fault), M.step u = .fault g → M.run (k + 1) u = .fault g :=
    fun M u g hu => by rw [Host.Core.run, hu]
  exact hrun Sys2Proof.core s f h

/-- A refusal ends a run. -/
theorem run_succ_of_refused {s : State} {r : Refusal} (k : Nat) (h : step s = .refused r) :
    Host.Core.run Sys2Proof.core (k + 1) s = .refused r := by
  have hrun : ∀ (M : Host.Core) (u : M.State) (q : M.Refusal), M.step u = .refused q → M.run (k + 1) u = .refused q :=
    fun M u q hu => by rw [Host.Core.run, hu]
  exact hrun Sys2Proof.core s r h

/-- A run of k + m steps: the run of m steps from the state k steps end in, or the stop of the first k. -/
theorem run_add (k m : Nat) (s : State) :
    (∃ t, Host.Core.run Sys2Proof.core k s = .next t ∧
      Host.Core.run Sys2Proof.core (k + m) s = Host.Core.run Sys2Proof.core m t) ∨
    (∃ f, Host.Core.run Sys2Proof.core k s = .fault f ∧ Host.Core.run Sys2Proof.core (k + m) s = .fault f) ∨
    (∃ r, Host.Core.run Sys2Proof.core k s = .refused r ∧ Host.Core.run Sys2Proof.core (k + m) s = .refused r) := by
  induction k generalizing s with
  | zero => exact .inl ⟨s, rfl, by rw [Nat.zero_add]⟩
  | succ k ih =>
    rw [Nat.succ_add]
    cases h : step s with
    | next t =>
      rw [run_succ_of_next _ h, run_succ_of_next _ h]
      exact ih t
    | fault f => exact .inr (.inl ⟨f, run_succ_of_fault _ h, run_succ_of_fault _ h⟩)
    | refused r => exact .inr (.inr ⟨r, run_succ_of_refused _ h, run_succ_of_refused _ h⟩)

/-- The last step of a run. -/
theorem run_succ_last {k : Nat} {s t : State} (h : Host.Core.run Sys2Proof.core k s = .next t) :
    Host.Core.run Sys2Proof.core (k + 1) s = step t := by
  have hone : Host.Core.run Sys2Proof.core 1 t = step t := by
    cases ht : step t with
    | next u => exact run_succ_of_next 0 ht
    | fault f => exact run_succ_of_fault 0 ht
    | refused r => exact run_succ_of_refused 0 ht
  rcases run_add k 1 s with ⟨u, hu, hrun⟩ | ⟨f, hf, -⟩ | ⟨r, hr, -⟩
  · obtain rfl : u = t := Host.Outcome.next.inj (hu.symm.trans h)
    exact hrun.trans hone
  · cases hf.symm.trans h
  · cases hr.symm.trans h

/-- No completion is refused: a refusal is the host's (R213). -/
theorem completion_ne_refused (s : State) (r : Refusal) : completion s ≠ .refused r := by
  rcases completion_cases s with ⟨i, -, h⟩ | ⟨e, -, h⟩ <;> rw [h]
  · exact exec_ne_refused i s r
  · exact nofun

/-- The register at a register's offset is that register (R20). -/
@[simp] theorem regAt_regOffset (r : Reg) : regAt (regOffset r) = some r := by cases r <;> decide

/-- Every register stands at a multiple of 4 (R20). -/
theorem wholeAligned_regOffset (r : Reg) : wholeAligned (regOffset r) 4 = true := by cases r <;> decide

end Sys2Proof.Machine
end

