-- ==== Sys2Proof/Laws/Run.lean ====
section
/-! SUPPORT. The fault set and the refusal mark of a run after one more step, in the terms of `runsTo` and `step`. -/

namespace Sys2Proof.Machine

/-- The state a run ends in is one. -/
theorem runsTo_unique {k : Nat} {s t u : State} (ht : runsTo k s t) (hu : runsTo k s u) : t = u :=
  Host.Outcome.next.inj (ht.symm.trans hu)

theorem faultSet_of_runsTo {k : Nat} {s t : State} (h : runsTo k s t) : faultSet k s = [] := by
  rw [faultSet, show Host.Core.run Sys2Proof.core k s = .next t from h]

theorem refusalMark_of_runsTo {k : Nat} {s t : State} (h : runsTo k s t) : refusalMark k s = false := by
  rw [refusalMark, show Host.Core.run Sys2Proof.core k s = .next t from h]

/-- The next step of a run that has not stopped adds to the fault set exactly the fault it ends in. -/
theorem mem_faultSet_succ_of_runsTo {k : Nat} {s t : State} (h : runsTo k s t) (f : Fault) :
    f ∈ faultSet (k + 1) s ↔ step t = .fault f := by
  rw [faultSet, run_succ_last h]
  cases step t with
  | next u => exact ⟨nofun, nofun⟩
  | fault g => exact ⟨fun hm => by rw [List.mem_singleton.1 hm], fun he => by rw [Host.Outcome.fault.inj he]; exact .head _⟩
  | refused r => exact ⟨nofun, nofun⟩

/-- The next step of a run that has not stopped sets the refusal mark exactly when it is refused. -/
theorem refusalMark_succ_of_runsTo {k : Nat} {s t : State} (h : runsTo k s t) :
    refusalMark (k + 1) s = true ↔ ∃ r, step t = .refused r := by
  rw [refusalMark, run_succ_last h]
  cases step t with
  | next u => exact ⟨nofun, nofun⟩
  | fault g => exact ⟨nofun, nofun⟩
  | refused r => exact ⟨fun _ => ⟨r, rfl⟩, fun _ => rfl⟩

/-- A run that has stopped keeps its fault set and its refusal mark. -/
theorem marks_succ_of_stopped {k : Nat} {s : State} (h : ∀ t, ¬ runsTo k s t) :
    faultSet (k + 1) s = faultSet k s ∧ refusalMark (k + 1) s = refusalMark k s := by
  have hrun : Host.Core.run Sys2Proof.core (k + 1) s = Host.Core.run Sys2Proof.core k s := by
    rcases run_add k 1 s with ⟨t, ht, -⟩ | ⟨f, hf, hstop⟩ | ⟨r, hr, hstop⟩
    · exact absurd ht (h t)
    · exact hstop.trans hf.symm
    · exact hstop.trans hr.symm
  constructor
  · rw [faultSet, hrun, faultSet]
  · rw [refusalMark, hrun, refusalMark]

end Sys2Proof.Machine
end

