-- ==== Sys2Proof/Laws/Claims.lean ====
section
/-! SUPPORT. The vocabulary of the statements in the model's own terms. -/

namespace Sys2Proof.Claims

open Sys2Proof.Machine

/-- The condition of R202 as the statements write it is the model's check. -/
theorem configBad_iff (i : Instr) (s : State) : ConfigBad i s ↔ configError i s = true := by
  simp only [configError, Bool.or_eq_true, Bool.and_eq_true, Bool.not_eq_true', Bool.or_eq_false_iff,
    decide_eq_true_eq, decide_eq_false_iff_not]
  cases i <;> simp [ConfigBad, checksChannels, checksImage, checksTextLen, checksOutput, imgW, imgH, imgC,
    textCount, textSize, pixSize, or_assoc]

theorem not_configBad_iff (i : Instr) (s : State) : ¬ ConfigBad i s ↔ configError i s = false := by
  rw [configBad_iff, Bool.not_eq_true]

theorem imageLoaded_iff (s : State) : ImageLoaded s ↔ imageWritten s = true := (imageWritten_iff s).symm

theorem textLoaded_iff (s : State) : TextLoaded s ↔ textWritten s = true := (textWritten_iff s).symm

/-- The skip rule as the statements write it is the model's. -/
theorem pixelProcessed_iff (s : State) (y x : Nat) :
    PixelProcessed s y x ↔ processed (imgW s) (imgC s) s.pix y x = true := by
  unfold PixelProcessed processed
  by_cases h : imgC s = 3
  · rw [if_pos h]
    exact iff_of_true (.inl h) rfl
  · rw [if_neg h]
    have h' : s.channels.toNat ≠ 3 := h
    simp only [h', false_or, allNonzero, Bool.and_eq_true, bne_iff_ne]
    constructor
    · intro hall
      exact ⟨⟨⟨hall 0 (by omega), hall 1 (by omega)⟩, hall 2 (by omega)⟩, hall 3 (by omega)⟩
    · rintro ⟨⟨⟨h0, h1⟩, h2⟩, h3⟩ c hc
      have : c = 0 ∨ c = 1 ∨ c = 2 ∨ c = 3 := by omega
      rcases this with rfl | rfl | rfl | rfl
      exacts [h0, h1, h2, h3]

theorem raster_nodup (W H : Nat) : (raster W H).Nodup :=
  (raster_pairwise W H).imp fun {p q} h heq => by
    subst heq
    exact Nat.lt_irrefl _ h

/-- P as the statements write it is the model's count. -/
theorem pixelsProcessed_eq (s : State) : pixelsProcessed s = procPixels s := by
  have hset : ((Finset.range s.height.toNat ×ˢ Finset.range s.width.toNat).filter
      fun p => PixelProcessed s p.1 p.2) =
      ((raster (imgW s) (imgH s)).filter fun p => processed (imgW s) (imgC s) s.pix p.1 p.2).toFinset := by
    ext p
    simp only [Finset.mem_filter, Finset.mem_product, Finset.mem_range, List.mem_toFinset, List.mem_filter, mem_raster,
      pixelProcessed_iff]
    rfl
  rw [pixelsProcessed, hset, List.toFinset_card_of_nodup ((raster_nodup _ _).filter _), procPixels, processedCount,
    List.countP_eq_length_filter]

/-- The counts do not wrap (R7). -/
theorem toNat_counts {s : State} (h : TextConfigured s) :
    (BitVec.ofNat 32 (procPixels s)).toNat = procPixels s ∧
    (BitVec.ofNat 32 (3 * procPixels s)).toNat = 3 * procPixels s ∧
    (BitVec.ofNat 32 (8 * (textCount s + 5))).toNat = 8 * (s.textLen.toNat + 5) := by
  have h1 := procPixels_le s
  have h2 : s.textLen.toNat ≤ 536870906 := Nat.le_trans h (Nat.le_of_lt_succ s.params.textDepth.isLt)
  have h3 : textCount s = s.textLen.toNat := rfl
  rw [BitVec.toNat_ofNat, BitVec.toNat_ofNat, BitVec.toNat_ofNat]
  omega

/-- In a state of the invariant, a running command's STATUS is as acceptance left it (R23). -/
theorem status_eq_of_busy {s : State} (h : Inv s) (hb : busyBit s.status = true) : s.status = statusAccepted := by
  rcases h.statusOk with h | h | h
  · rw [h] at hb
    cases hb
  · exact h
  · rw [h.1] at hb
    cases hb

/-- The address of a channel determines the pixel's index and the channel (R61). -/
theorem pixelAddr_injective {W C y x c y' x' c' : Nat} (hx : x < W) (hx' : x' < W) (hc : c < C) (hc' : c' < C)
    (h : pixelAddr W C y x c = pixelAddr W C y' x' c') : y = y' ∧ x = x' ∧ c = c' := by
  have key : ∀ {m i j r q : Nat}, r < m → q < m → i * m + r = j * m + q → i = j ∧ r = q := by
    intro m i j r q hr hq he
    have hm : 0 < m := by omega
    have h1 := congrArg (· / m) he
    have h2 := congrArg (· % m) he
    simp only [Nat.mul_comm _ m, Nat.mul_add_div hm, Nat.div_eq_of_lt hr, Nat.div_eq_of_lt hq, Nat.mul_add_mod,
      Nat.mod_eq_of_lt hr, Nat.mod_eq_of_lt hq, Nat.add_zero] at h1 h2
    exact ⟨h1, h2⟩
  obtain ⟨h1, h2⟩ := key hc hc' h
  obtain ⟨h3, h4⟩ := key hx hx' h1
  exact ⟨h3, h4, h2⟩

theorem completed_complete (e : ErrCode) (s : State) {u : State} (h : u.status = s.status) :
    Completed e s (complete e u) := by
  simp [Completed, h]

theorem keepsAllButStatus_complete (e : ErrCode) (s : State) : KeepsAllButStatus s (complete e s) := by
  simp [KeepsAllButStatus, KeepsAllButResult, KeepsInputs, KeepsPix, KeepsTxt, KeepsCounts, KeepsScan]

theorem keepsAllButResult_setResult (e : ErrCode) (v : Word) (s : State) :
    KeepsAllButResult s (complete e (setResult v s)) := by
  simp [KeepsAllButResult, KeepsInputs, KeepsPix, KeepsTxt, KeepsCounts, KeepsScan]

/-- A bit of a decoded byte, as a term of the sum of R105. -/
theorem toNat_decodeBits {D : List Bool} {j : Nat} {b : Byte} (hb : (decodeBits D)[j]? = some b) :
    b.toNat = byteSum D j := by
  have hbit : ∀ i, i < 8 → bitAt D (8 * j + i) = (b.getLsbD (7 - i)).toNat := fun i hi => by
    rw [bitAt, getLsbD_decodeBits hb hi, Option.getD_some]
  have hsum : ∀ c : Byte, c.toNat = ∑ i ∈ Finset.range 8, (c.getLsbD (7 - i)).toNat * 2 ^ (7 - i) := by decide
  rw [hsum b, byteSum]
  exact Finset.sum_congr rfl fun i hi => by rw [hbit i (Finset.mem_range.1 hi)]

end Sys2Proof.Claims
end

