-- ==== Sys2Proof/Laws/PerInstr.lean ====
section
/-! SUPPORT. A statement about every command, made command by command: its word is legal, and its fields are those of the
opcode map. -/

namespace Sys2Proof.Laws.WordLegal

/-- The command's word has RSVD = 0, an OPCODE that R91 lists, and that OPCODE selects the command. -/
def Statement (i : Instr) : Prop :=
  legalWord (encode i) = true ∧ rsvdField (encode i) = 0 ∧ commandOf (opcodeField (encode i)) = some i

theorem embed : Statement .embed := by unfold Statement; decide
theorem extract : Statement .extract := by unfold Statement; decide
theorem capacity : Statement .capacity := by unfold Statement; decide
theorem serByte : Statement .serByte := by unfold Statement; decide
theorem chanEmbed : Statement .chanEmbed := by unfold Statement; decide
theorem chanExtract : Statement .chanExtract := by unfold Statement; decide
theorem pixSelect : Statement .pixSelect := by unfold Statement; decide
theorem sentMatch : Statement .sentMatch := by unfold Statement; decide

end Sys2Proof.Laws.WordLegal
end

