-- ==== Sys2Proof/Tests/Slice0.lean ====
section
/-! SUPPORT. Tests: expected results are the spec's own vectors (95_test_vectors.md) and worked corner cases, named in each
comment, never the model's answers. -/

namespace Sys2Proof.Tests

open Sys2Proof.Machine
open Sys2Proof.Claims

/-- A field of the next state, if there is one. -/
def got {α : Type} (o : Machine.Result) (f : State → α) : Option α :=
  match o with
  | .next t => some (f t)
  | .fault _ => none
  | .refused _ => none

/-- The fault, if the step stops with one. -/
def faultOf (o : Machine.Result) : Option Fault :=
  match o with
  | .next _ => none
  | .fault f => some f
  | .refused _ => none

/-- The refusal, if the step is refused. -/
def refusalOf (o : Machine.Result) : Option Refusal :=
  match o with
  | .next _ => none
  | .fault _ => none
  | .refused r => some r

/-- Memory holding a list from address 0. -/
def cells {n : Nat} (vs : List (BitVec n)) : List (Nat × BitVec n) := vs.zipIdx.map fun p => (p.2, p.1)

/-- A small state: an image, its dimensions, and a text of `text.length` words. -/
def small (w h : BitVec 15) (c : BitVec 3) (bytes : List Byte) (text : List Word) : State :=
  { State.reset with
    width := w, height := h, channels := c, pix := cells bytes, txt := cells text
    textLen := BitVec.ofNat 32 text.length }

/-- A small state with the operand registers. -/
def operands (a b : Word) : State := { State.reset with opa := a, opb := b }

/-! Decoding: command words written out from R91, and each check of R92 refused. -/

theorem test_decode_embed : decode 0b00000000000000000000000000000001#32 = .ok .embed := by decide
theorem test_decode_extract : decode 0b00000000000000000000000000000010#32 = .ok .extract := by decide
theorem test_decode_capacity : decode 0b00000000000000000000000000000011#32 = .ok .capacity := by decide
theorem test_decode_ser_byte : decode 0b00000000000000000000000000000100#32 = .ok .serByte := by decide
theorem test_decode_chan_embed : decode 0b00000000000000000000000000000101#32 = .ok .chanEmbed := by decide
theorem test_decode_chan_extract : decode 0b00000000000000000000000000000110#32 = .ok .chanExtract := by decide
theorem test_decode_pix_select : decode 0b00000000000000000000000000000111#32 = .ok .pixSelect := by decide
theorem test_decode_sent_match : decode 0b00000000000000000000000000001000#32 = .ok .sentMatch := by decide

/-- E1, E3: opcodes 0x00 and 0x09. -/
theorem test_decode_rejects_opcode : decode 0x00000000#32 = .error .reservedOpcode ∧
    decode 0x00000009#32 = .error .reservedOpcode ∧ decode 0x000000FF#32 = .error .reservedOpcode := by decide
/-- E2: RSVD not 0, beside an illegal and beside a legal opcode. -/
theorem test_decode_rejects_reserved_bits : decode 0x00000109#32 = .error .reservedBits ∧
    decode 0x80000001#32 = .error .reservedBits := by decide

/-- The checks of WellFormed refuse: RSVD not 0, OPCODE 0 and 9, an unaligned offset, a part of a word. -/
theorem test_wf_smoke : rsvdZero 0x00000101#32 = false ∧ opcodeListed 0x00000000#32 = false ∧
    opcodeListed 0x00000009#32 = false ∧ legalWord 0x00000108#32 = false ∧
    wholeAligned 0x02 4 = false ∧ wholeAligned 0x04 2 = false ∧ Instr.wf .embed = true := by decide

/-! Message serializer. -/

/-- S2: encode("A"). -/
theorem test_encode_A : encodeText [0x41#32] = some
    ([false, true, false, false, false, false, false, true] ++
     [false, false, true, false, true, false, false, false, false, true, true, false, false, true, false, true,
      false, true, true, false, true, true, true, false, false, true, true, false, false, true, false, false,
      false, false, true, false, true, false, false, true]) := by decide
/-- S5: truncation of the 18 bits 011000110011110011, then decode. -/
theorem test_truncate_decode : decodeBits (truncate8 [false, true, true, false, false, false, true, true, false, false,
    true, true, true, true, false, false, true, true]) = [0x63#8, 0x3C#8] := by decide
/-- S8, the example of R110: byte 1 of "A" is the sentinel's first. -/
theorem test_ser_byte_sentinel :
    got (exec .serByte { small 0 0 0 [] [0x41] with opa := 1 }) (fun t => (t.result, t.status)) =
      some (0x28#32, 0x02#8) := by decide
/-- S9, S12: RANGE, and ENCODING, with RESULT unchanged. -/
theorem test_ser_byte_errors :
    got (exec .serByte { small 0 0 0 [] [0x41] with opa := 6, result := 7 }) (fun t => (t.result, t.status)) =
      some (7#32, 0x52#8) ∧
    got (exec .serByte { small 0 0 0 [] [0x100, 0x42] with opa := 0, result := 7 })
      (fun t => (t.result, t.status)) = some (7#32, 0x22#8) := by decide

/-! Channel embedder and extractor. -/

/-- C13, C9: high operand bits ignored; v = 0xFF. -/
theorem test_chan_embed : got (exec .chanEmbed (operands 0x12345602 0xFFFFFFFF)) (fun t => t.result) = some 0 ∧
    got (exec .chanEmbed (operands 0xFF 1)) (fun t => t.result) = some 0xFD := by decide
/-- C15, C16. -/
theorem test_chan_extract : got (exec .chanExtract (operands 0xFFFFFF01 0)) (fun t => t.result) = some 1 ∧
    got (exec .chanExtract (operands 0xFF 0)) (fun t => t.result) = some 0 := by decide

/-! Pixel selector and sentinel detector. -/

/-- X5, X1: blue 0 with C = 4; any pixel with C = 3. -/
theorem test_pix_select :
    got (exec .pixSelect { operands 0xFF000001 0 with channels := 4 }) (fun t => t.result) = some 0 ∧
    got (exec .pixSelect { operands 0 0 with channels := 3 }) (fun t => t.result) = some 1 := by decide
/-- X6: C = 5. -/
theorem test_pix_select_config :
    got (exec .pixSelect { operands 0 0 with channels := 5, result := 9 }) (fun t => (t.status, t.result)) =
      some (0x32#8, 9#32) := by decide
/-- D2, D4. -/
theorem test_sent_match : got (exec .sentMatch (operands 0x656E6429 0xFFFFFF28)) (fun t => t.result) = some 1 ∧
    got (exec .sentMatch (operands 0x656E6429 0x29)) (fun t => t.result) = some 0 := by decide
/-- X10: 14x1 RGB, n = 0, just fits. -/
theorem test_capacity_fits :
    got (exec .capacity (small 14 1 3 (List.replicate 42 0) [])) (fun t => (t.procCount, t.capBits, t.reqBits, t.result)) =
      some (14#32, 42#32, 40#32, 1#32) := by decide
/-- The RGBA skip rule of P3 on one row of four pixels, two of them with alpha 0 (R140). -/
theorem test_capacity_skips :
    got (exec .capacity (small 4 1 4 [10, 20, 30, 255, 11, 21, 31, 0, 12, 22, 32, 255, 13, 23, 33, 0] []))
      (fun t => (t.procCount, t.capBits, t.result)) = some (2#32, 6#32, 0#32) := by decide
/-- R148: the first match of encode("(end)") is at 0, that of encode("A") at 8. -/
theorem test_first_match : firstMatch (sentBits ++ sentBits) = some 0 ∧
    firstMatch (bits8 0x41 ++ sentBits) = some 8 := by decide

/-! Whole operations. -/

/-- The pixel bytes program P2 leaves. -/
def imageP2 : List Byte :=
  [0, 2, 0, 0, 0, 0, 0, 2, 0, 0, 2, 0, 2, 0, 0, 0] ++ [0, 2, 2, 0, 0, 2, 0, 2, 0, 2, 2, 0, 2, 2, 2, 0] ++
  [0, 2, 2, 0, 0, 2, 0, 0, 0, 0, 2, 0, 2, 0, 0, 2]

/-- O1: "A" in a 4x4 RGB image of zeros, at exact capacity. -/
theorem test_embed_exact_capacity :
    got (exec .embed (small 4 4 3 (List.replicate 48 0) [0x41])) (fun t => (t.pix, t.status, t.procCount)) =
      some (cells imageP2, 0x02#8, 16#32) := by decide
/-- O3: a 1x1 RGB image, with the counts reported (E10: STATUS = 0x12). -/
theorem test_embed_capacity_error :
    got (exec .embed (small 1 1 3 [0, 0, 0] [])) (fun t => (t.pix, t.status, t.procCount, t.capBits, t.reqBits)) =
      some (cells [0, 0, 0], 0x12#8, 1#32, 3#32, 40#32) := by decide
/-- O2: EXTRACT of that image. -/
theorem test_extract_P2 :
    got (exec .extract (small 4 4 3 imageP2 [0, 0, 7]))
      (fun t => (t.textLen, t.txt, t.sentPos, t.bitsScanned, t.status)) =
      some (1#32, cells [0x41#32, 0, 7], 8#32, 48#32, 0x06#8) := by decide
/-- P4: no sentinel, truncation. -/
theorem test_extract_best_effort :
    got (exec .extract (small 3 2 3 [0x00, 0x01, 0x02, 0x03, 0xFF, 0x10, 0x11, 0x12, 0x13, 0x20, 0x21, 0x22, 0x05,
      0x06, 0x07, 0x08, 0x09, 0x0A] [])) (fun t => (t.textLen, t.txt, t.sentPos, t.bitsScanned, t.status)) =
      some (2#32, cells [0x63#32, 0x3C], 0#32, 18#32, 0x0A#8) := by decide
/-- E8: image bytes never written. -/
theorem test_extract_uninit : faultOf (exec .extract (small 1 1 3 [] [])) = some .uninit := by decide

/-! The machine: reset, completion, ports. -/

/-- R230: after reset STATUS reads 0 and every memory location is unwritten. -/
theorem test_reset : readReg .status State.reset = 0 ∧ State.reset.pix = [] ∧ State.reset.txt = [] := by decide
/-- E4: after reset, EXTRACT completes with CONFIG (C = 0). -/
theorem test_reset_extract_config :
    got (step (State.reset.withFetchWord 32 2)) (fun t => readReg .status t) = some 0x32 := by decide
/-- E2: an illegal word completes with ILLEGAL. -/
theorem test_illegal : got (step (State.reset.withFetchWord 32 0x109)) (fun t => readReg .status t) = some 0x42 := by
  decide
/-- The table's word is decoded, and bits above the row's length are 0. -/
theorem test_table_word : decodeTableWord 32 8 = some .sentMatch ∧ decodeTableWord 32 9 = none := by decide
/-- E9: STATUS right after acceptance is 0x00000001, and PEND latches the word. -/
theorem test_accept : got (hostRegWrite 0x00 4 0x5 State.reset) (fun t => (readReg .status t, t.pend)) = some (1, 5) := by
  decide
/-- E5: a write of OPA while BUSY = 1 is ignored. -/
theorem test_busy_write_ignored : got (hostRegWrite 0x18 4 5 (accept 5 State.reset)) (fun t => t.opa) = some 0 := by
  decide
/-- E7: a pixel port access while BUSY = 1 is refused. -/
theorem test_busy_pix_refused :
    refusalOf (hostPixWrite 0 1 (accept 1 State.reset)) = some .memoryAccessWhileBusy := by decide
/-- R67: a half-word access and an unaligned one are refused. -/
theorem test_partial_access_refused : refusalOf (hostRegRead 0x08 2 State.reset) = some .partialRegisterAccess ∧
    refusalOf (hostRegWrite 0x0A 4 0 State.reset) = some .partialRegisterAccess := by decide
/-- R42, R30: a reserved offset reads 0; WIDTH stores bits [14:0] only. -/
theorem test_reserved : got (hostRegRead 0x38 4 (accept 1 State.reset)) (fun t => t.lastRead) = some (some 0) ∧
    got (hostRegWrite 0x08 4 0xFFFF8003 State.reset) (fun t => readReg .width t) = some 3 := by decide
/-- R231: a reset while BUSY forgets the image region and all text, and nothing else. -/
theorem test_reset_while_busy :
    (platformReset (accept 1 (small 1 1 3 [1, 2, 3, 4] [5]))).pix = [(3, 4)] ∧
    (platformReset (accept 1 (small 1 1 3 [1, 2, 3, 4] [5]))).txt = [] ∧
    (platformReset (small 1 1 3 [1, 2, 3, 4] [5])).pix = cells [1, 2, 3, 4] := by decide
/-- R95: the expansions of RUN, SETOP and LOADTXT. -/
theorem test_expand : expand (.RUN .chanEmbed) = [.regWrite 0x00 4 5, .wait] ∧
    expand (.LOADTXT ['A']) = [.txtWrite 0 0x41, .regWrite 0x14 4 1] ∧
    expand (.SETOP 3 1) = [.regWrite 0x18 4 3, .regWrite 0x1C 4 1] := by decide
/-- P1, lines 1 and 2: SETOP 3, 1; RUN CHAN_EMBED; the poll that ends WAIT reads STATUS = 2. -/
theorem test_program_P1 :
    (match Host.Core.run Sys2Proof.core 5 (State.reset.withProgram [.SETOP 3 1, .RUN .chanEmbed]) with
      | .next t => some (t.result, t.lastRead, t.host)
      | .fault _ => none
      | .refused _ => none) = some (1, some 2, []) := by decide

/-! ## Witnesses: states and operands that meet the hypotheses of each statement together, clause by clause. -/

theorem next_of_got {α : Type} {o : Machine.Result} {f : State → α} {x : α} (h : got o f = some x) :
    ∃ t, o = .next t ∧ f t = x := by
  cases o with
  | next t => exact ⟨t, rfl, Option.some.inj h⟩
  | fault f => cases h
  | refused r => cases h

/-- The image of the memory read as the statements read it. -/
theorem image_of {s : State} (h : imageWritten s = true) : ImageLoaded s := (imageLoaded_iff s).2 h

theorem text_of {s : State} (h : textWritten s = true) : TextLoaded s := (textLoaded_iff s).2 h

theorem not_image_of {s : State} (h : imageWritten s = false) : ¬ ImageLoaded s := fun hl => by
  rw [(imageLoaded_iff s).1 hl] at h
  cases h

theorem good_of {i : Instr} {s : State} (h : configError i s = false) : ¬ ConfigBad i s := (not_configBad_iff i s).2 h

theorem bad_of {i : Instr} {s : State} (h : configError i s = true) : ConfigBad i s := (configBad_iff i s).2 h

theorem fits_of {s : State} {S : List Bool} (h : encodeText (payload s) = some S) : TextFits s := fun j w hj hw => by
  have hmem : w ∈ payload s := by
    have hget := getElem?_payload (s := s) hj
    rw [txtRead_eq hw] at hget
    exact List.mem_of_getElem? hget
  exact (encodeText_eq_some h).1 w hmem

theorem match_of {r : List Bool} {p : Nat} (h : firstMatch r = some p) :
    SentinelAt r p ∧ ∀ q, q < p → ¬ SentinelAt r q := by
  rcases firstMatchFrom_cases 0 r with ⟨q, hq, hat, hlt⟩ | ⟨hn, -⟩
  · rw [firstMatch, hq, Nat.zero_add] at h
    obtain rfl := Option.some.inj h
    exact ⟨hat, hlt⟩
  · rw [firstMatch, hn] at h
    cases h

theorem no_match_of {r : List Bool} (h : firstMatch r = none) : ∀ q, ¬ SentinelAt r q := by
  rcases firstMatchFrom_cases 0 r with ⟨q, hq, -⟩ | ⟨-, hall⟩
  · rw [firstMatch, hq] at h
    cases h
  · exact hall

/-- P2 before EMBED: "A" and a 4x4 RGB image of zeros, which it fills exactly. -/
def carrier : State := small 4 4 3 (List.replicate 48 0) [0x41]
/-- P2 after EMBED. -/
def marked : State := small 4 4 3 imageP2 [0x41]
/-- A 1x1 RGB image, too small for any payload. -/
def tiny : State := small 1 1 3 [0, 1, 2] []
/-- One RGBA pixel that is processed and one that is skipped. -/
def rgba : State := small 2 1 4 [1, 2, 3, 4, 5, 6, 7, 0] []

theorem carrier_image : ImageConfigured carrier ∧ ImageLoaded carrier :=
  ⟨by unfold ImageConfigured; decide, image_of (by decide)⟩
theorem carrier_text : TextConfigured carrier ∧ TextLoaded carrier :=
  ⟨by unfold TextConfigured; decide, text_of (by decide)⟩
theorem carrier_stream : ∃ S, encodeText (payload carrier) = some S ∧ S = bits8 0x41 ++ sentBits := ⟨_, rfl, by decide⟩
theorem carrier_processed : pixelsProcessed carrier = 16 := by
  rw [pixelsProcessed_eq]
  decide
theorem carrier_fits : TextFits carrier := by
  obtain ⟨S, h, -⟩ := carrier_stream
  exact fits_of h

/-- RSVD at its lowest and highest bit; OPCODE at 0, 9 and 255. -/
theorem witness_IllegalWordRaisesIllegal :
    ({ State.reset with pend := 0x101 }.pend.extractLsb' 8 24 ≠ 0) ∧
    ({ State.reset with pend := 0x80000001 }.pend.extractLsb' 8 24 ≠ 0) ∧
    (({ State.reset with pend := 0 }.pend.extractLsb' 0 8).toNat < 1) ∧
    (8 < ({ State.reset with pend := 9 }.pend.extractLsb' 0 8).toNat) ∧
    (8 < ({ State.reset with pend := 255 }.pend.extractLsb' 0 8).toNat) := by decide

theorem witness_StepRunsTheAcceptedCommand :
    (busyBit (accept 5 State.reset).status = true ∧ decode (accept 5 State.reset).pend = .ok .chanEmbed ∧
      (accept 5 State.reset).turns = []) ∧
    (busyBit (State.reset.withFetchWord 32 8).status = true ∧ decode (State.reset.withFetchWord 32 8).pend = .ok .sentMatch ∧
      (State.reset.withFetchWord 32 8).turns = [.engine]) ∧
    (State.reset.turns = [] ∧ busyBit State.reset.status = false) ∧
    { State.reset with turns := [.host] }.turns = [.host] ∧ { State.reset with turns := [.reset] }.turns = [.reset] := by
  decide

theorem witness_AcceptanceLatchesTheWord :
    busyBit State.reset.status = false ∧ busyBit (accept 0x109 State.reset).status = true := by decide

/-- A legal word, an illegal one, and EXTRACT at the head of its opcode. -/
theorem witness_CompletionWritesStatus :
    busyBit (accept 5 State.reset).status = true ∧ decode (accept 5 State.reset).pend = .ok .chanEmbed ∧
    (∃ t, completion (accept 0x109 State.reset) = .next t ∧ legalWord (accept 0x109 State.reset).pend = false) ∧
    (∃ t, completion (accept 5 State.reset) = .next t ∧ (accept 5 State.reset).pend ≠ encode .extract) :=
  ⟨by decide, by decide, ⟨_, rfl, by decide⟩, ⟨_, rfl, by decide⟩⟩

theorem witness_RegisterAccessWhileBusy : busyBit (accept 1 State.reset).status = true := by decide

theorem witness_HostCannotDisturbARunningCommand :
    ∃ t, busyBit (accept 1 State.reset).status = true ∧
      hostMove { accept 1 State.reset with host := [.regWrite 0x18 4 5] } = .next t ∧ t.opa = 0 := by
  obtain ⟨t, h, ht⟩ := next_of_got
    (o := hostMove { accept 1 State.reset with host := [.regWrite 0x18 4 5] }) (f := fun t => t.opa) (x := 0) (by decide)
  exact ⟨t, by decide, h, ht⟩

theorem witness_MemoryAfterReset :
    busyBit tiny.status = false ∧ busyBit (accept 1 tiny).status = true ∧
    2 < (accept 1 tiny).width.toNat * (accept 1 tiny).height.toNat * (accept 1 tiny).channels.toNat ∧
    ¬ 3 < (accept 1 tiny).width.toNat * (accept 1 tiny).height.toNat * (accept 1 tiny).channels.toNat := by decide

theorem witness_EveryStepKeepsTheInvariant : ∃ t, Inv State.reset ∧ step State.reset = .next t :=
  ⟨_, { pixWf := by decide, txtWf := by decide, pixInside := by decide, txtInside := by decide, statusOk := .inl rfl,
        capacityOk := by decide, scanOk := .inl rfl }, rfl⟩

theorem witness_SentinelPattern : sentBits.drop 37 = sentBits.take 3 ∧ sentBits.drop 1 ≠ sentBits.take 39 := by decide

/-- The last bit of the payload byte, the first and the last of the sentinel, and a code point of 256. -/
theorem witness_EncodedStreamBits :
    (encodeText [0x41#32]).isSome = true ∧ [0x41#32][7 / 8]? = some 0x41#32 ∧ [0x41#32].length ≤ 8 / 8 ∧
    47 < 8 * ([0x41#32].length + 5) ∧ encodeText [0x100#32] = none := by decide

theorem witness_StreamLengthIsReqBits : ∃ t S, exec .capacity carrier = .next t ∧ errField t.status = errCode .none ∧
    encodeText (payload carrier) = some S := by
  obtain ⟨t, h, ht⟩ := next_of_got
    (o := exec .capacity carrier) (f := fun t => errField t.status) (x := errCode .none) (by decide)
  obtain ⟨S, hS, -⟩ := carrier_stream
  exact ⟨t, S, h, ht, hS⟩

theorem witness_DecodeIsTheByteSum : (bits8 0xFF ++ bits8 1).length % 8 = 0 ∧ 1 < (bits8 0xFF ++ bits8 1).length / 8 := by
  decide

theorem witness_DecodeInvertsEncode : (encodeText [0x00#32, 0xFF#32]).isSome = true := by decide

/-- A state for SER_BYTE: one word of text, written or not, and the index. -/
def ser (w : Option Word) (n j : Word) : State :=
  { State.reset with txt := w.elim [] (fun v => [(0, v)]), textLen := n, opa := j }

/-- n one above TEXT_DEPTH; j = n + 5; word j unwritten; code points 256 and 255; j = n and j = n + 4. -/
theorem witness_SerByteReadsByteOfTheStream :
    (ser none 4097 0).params.textDepth.val < (ser none 4097 0).textLen.toNat ∧
    (TextConfigured (ser none 4096 4101) ∧ (ser none 4096 4101).textLen.toNat + 5 ≤ (ser none 4096 4101).opa.toNat) ∧
    (TextConfigured (ser none 1 0) ∧ Memory.find (ser none 1 0).txt (ser none 1 0).opa.toNat = none) ∧
    (TextConfigured (ser (some 256) 1 0) ∧ Memory.find (ser (some 256) 1 0).txt 0 = some 256#32 ∧ 256 ≤ (256#32).toNat) ∧
    (TextConfigured (ser (some 255) 1 0) ∧ Memory.find (ser (some 255) 1 0).txt 0 = some 255#32 ∧ (255#32).toNat < 256) ∧
    (TextConfigured (ser none 1 1) ∧ sent[(ser none 1 1).opa.toNat - (ser none 1 1).textLen.toNat]? = some 0x28#8) ∧
    (TextConfigured (ser none 0 4) ∧ sent[(ser none 0 4).opa.toNat - (ser none 0 4).textLen.toNat]? = some 0x29#8) := by
  unfold TextConfigured
  decide

theorem witness_StreamBitsAreSerByteBits : TextConfigured carrier ∧ TextLoaded carrier ∧
    (∃ S, encodeText (payload carrier) = some S) ∧ 47 < 8 * (carrier.textLen.toNat + 5) := by
  obtain ⟨S, hS, -⟩ := carrier_stream
  exact ⟨carrier_text.1, carrier_text.2, ⟨S, hS⟩, by decide⟩

theorem witness_ZeroingCorner : (2#8 ≠ 0 ∧ embedBit 2 true = 0) ∧ (3#8 ≠ 0 ∧ embedBit 3 true ≠ 0) := by decide

theorem witness_PixSelectEvaluatesTheSkipRule :
    ({ State.reset with channels := 2 }.channels.toNat ≠ 3 ∧ { State.reset with channels := 2 }.channels.toNat ≠ 4) ∧
    { State.reset with channels := 3 }.channels.toNat = 3 ∧ { State.reset with channels := 4 }.channels.toNat = 4 := by
  decide

/-- No channel count; an image with one byte unwritten; and a whole one. -/
theorem witness_CapacityReportsTheExactCounts :
    ConfigBad .capacity State.reset ∧
    (¬ ConfigBad .capacity (small 1 1 3 [0, 0] []) ∧ ¬ ImageLoaded (small 1 1 3 [0, 0] [])) ∧
    (¬ ConfigBad .capacity carrier ∧ ImageLoaded carrier) :=
  ⟨bad_of (by decide), ⟨good_of (by decide), not_image_of (by decide)⟩, good_of (by decide), carrier_image.2⟩

/-- An RGBA image with a processed and a skipped pixel, and an RGB image. -/
theorem witness_SlotsAreInRasterOrder :
    rgba.channels.toNat = 4 ∧ slots rgba = [0, 1, 2] ∧ tiny.channels.toNat = 3 ∧ slots tiny = [0, 1, 2] := by decide

/-- R150: the 48th bit of encode("A") enters the window and completes the match at 8; the 39th of SENT_BITS completes none. -/
theorem test_detector_push :
    detectorPush { sw := 0x9432B73214#40, q := 47, pos := none } true = { sw := sentWord, q := 48, pos := some 8 } ∧
    (detectorPush { sw := 0x0A195B990A#40, q := 38, pos := none } false).pos = none := by decide

theorem witness_StreamingDetectorFindsTheFirstMatch :
    firstMatch (bits8 0x41 ++ sentBits ++ [true]) = some 8 ∧ firstMatch (sentBits.take 39) = none := by decide

/-- The payload that fits exactly, 48 bits in 16 pixels. -/
theorem witness_EmbedWritesTheStreamIntoTheSlots :
    ImageConfigured carrier ∧ TextConfigured carrier ∧ TextLoaded carrier ∧ TextFits carrier ∧ ImageLoaded carrier ∧
    8 * (carrier.textLen.toNat + 5) ≤ 3 * pixelsProcessed carrier := by
  refine ⟨carrier_image.1, carrier_text.1, carrier_text.2, carrier_fits, carrier_image.2, ?_⟩
  rw [carrier_processed]
  decide

theorem witness_CapacityErrorReportsTheCounts :
    ImageConfigured tiny ∧ TextConfigured tiny ∧ TextLoaded tiny ∧ TextFits tiny ∧ ImageLoaded tiny ∧
    3 * pixelsProcessed tiny < 8 * (tiny.textLen.toNat + 5) := by
  refine ⟨by unfold ImageConfigured; decide, by unfold TextConfigured; decide, text_of (by decide),
    fits_of (S := sentBits) rfl, image_of (by decide), ?_⟩
  rw [pixelsProcessed_eq]
  decide

/-- A code point of 256 at the last index, with no pixel written; and a next state of each command with the code. -/
theorem witness_EncodingErrorPrecedesThePixels :
    (¬ ConfigBad .embed (small 1 1 3 [] [0x41, 0x100]) ∧ TextLoaded (small 1 1 3 [] [0x41, 0x100]) ∧
      1 < (small 1 1 3 [] [0x41, 0x100]).textLen.toNat ∧
      Memory.find (small 1 1 3 [] [0x41, 0x100]).txt 1 = some 0x100#32 ∧ 256 ≤ (0x100#32).toNat) ∧
    (∃ t, exec .embed (small 1 1 3 [] [0x41, 0x100]) = .next t ∧ errField t.status = errCode .encoding) ∧
    (∃ t, exec .serByte (ser (some 256) 1 0) = .next t ∧ errField t.status = errCode .encoding) :=
  ⟨⟨good_of (by decide), text_of (by decide), by decide, by decide, by decide⟩,
    next_of_got (f := fun t => errField t.status) (by decide), next_of_got (f := fun t => errField t.status) (by decide)⟩

theorem witness_EmbedIsAllOrNothing :
    (∃ t, exec .embed carrier = .next t ∧ errField t.status = errCode .none) ∧
    (∃ t, exec .embed tiny = .next t ∧ errField t.status = errCode .capacity) :=
  ⟨next_of_got (f := fun t => errField t.status) (by decide), next_of_got (f := fun t => errField t.status) (by decide)⟩

/-- A 15x1 RGBA carrier: one pixel skipped, 14 processed, two slots past the payload. -/
def carrier4 : State := small 15 1 4 ([9, 9, 9, 0] ++ List.replicate 56 3) []

/-- An alpha byte, a skipped pixel, a slot past the payload and a slot whose bit is 0. -/
theorem witness_EmbedLeavesTheRestOfTheImage :
    (∃ t, exec .embed carrier4 = .next t ∧ errField t.status = errCode .none) ∧ carrier4.channels.toNat = 4 ∧
    ¬ PixelProcessed carrier4 0 0 ∧ 8 * (carrier4.textLen.toNat + 5) ≤ 40 ∧ (slots carrier4)[40]? = some 57 ∧
    encodeText (payload carrier4) = some sentBits ∧ sentBits[0]? = some false ∧ (slots carrier4)[0]? = some 4 := by
  refine ⟨next_of_got (f := fun t => errField t.status) (by decide), by decide, fun h => ?_, by decide, by decide, by decide,
    by decide, by decide⟩
  rw [pixelProcessed_iff] at h
  exact absurd h (by decide)

theorem witness_OnlyBitOneOfAPixelByteChanges :
    ∃ t, exec .embed carrier = .next t ∧ pixRead t.pix 1 = 2 :=
  next_of_got (f := fun t => pixRead t.pix 1) (by decide)

/-- A match after one byte; and one at index 0. -/
theorem witness_ExtractDeliversTheTextBeforeTheMatch :
    (ImageConfigured marked ∧ 3 * marked.width.toNat * marked.height.toNat / 8 ≤ marked.params.textDepth.val ∧
      ImageLoaded marked ∧ SentinelAt (recovered marked) 8 ∧ ∀ q, q < 8 → ¬ SentinelAt (recovered marked) q) ∧
    (SentinelAt (sentBits ++ [true]) 0 ∧ ∀ q, q < 0 → ¬ SentinelAt (sentBits ++ [true]) q) :=
  ⟨⟨by unfold ImageConfigured; decide, by decide, image_of (by decide), match_of (by decide)⟩, match_of (by decide)⟩

theorem witness_ExtractIsBestEffort :
    ImageConfigured tiny ∧ 3 * tiny.width.toNat * tiny.height.toNat / 8 ≤ tiny.params.textDepth.val ∧ ImageLoaded tiny ∧
    ∀ q, ¬ SentinelAt (recovered tiny) q :=
  ⟨by unfold ImageConfigured; decide, by decide, image_of (by decide), no_match_of (by decide)⟩

theorem witness_RecoveredBitsAreTheSlotsInOrder :
    (slots marked)[47]? = some 47 ∧ Memory.find marked.pix 47 = some 2#8 ∧ (recovered marked)[47]? = some true := by decide

theorem witness_RoundTrip : ∃ S, ImageConfigured carrier ∧ TextConfigured carrier ∧
    3 * carrier.width.toNat * carrier.height.toNat / 8 ≤ carrier.params.textDepth.val ∧
    TextLoaded carrier ∧ ImageLoaded carrier ∧ encodeText (payload carrier) = some S ∧
    8 * (carrier.textLen.toNat + 5) ≤ 3 * pixelsProcessed carrier ∧
    (∀ k a, k < 8 * (carrier.textLen.toNat + 5) → (slots carrier)[k]? = some a →
      (pixRead carrier.pix a).getLsbD 1 = (pixRead carrier.pix a).getLsbD 0) ∧
    (∀ q, q < 8 * carrier.textLen.toNat → ¬ SentinelAt S q) := by
  obtain ⟨S, hS, hval⟩ := carrier_stream
  have hslots : slots carrier = List.range 48 := by decide
  have hzero : ∀ a, a < 48 → pixRead carrier.pix a = 0 := by decide
  refine ⟨S, carrier_image.1, carrier_text.1, by decide, carrier_text.2, carrier_image.2, hS, ?_, fun k a _ ha => ?_, ?_⟩
  · rw [carrier_processed]
    decide
  · rw [hslots] at ha
    rw [hzero a (List.mem_range.1 (List.mem_of_getElem? ha))]
    rfl
  · rw [hval]
    exact (match_of (p := 8) (by decide)).2

/-- Each line of R202, just past its bound, and a next state with the code. -/
theorem witness_ConfigErrorConditions :
    ConfigBad .pixSelect { State.reset with channels := 5 } ∧
    ConfigBad .capacity (small 21846 1 3 [] []) ∧ ¬ ConfigBad .capacity (small 21845 1 3 [] []) ∧
    ConfigBad .serByte (ser none 4097 0) ∧ ¬ ConfigBad .serByte (ser none 4096 0) ∧
    ConfigBad .extract (small 10926 1 3 [] []) ∧ ¬ ConfigBad .extract (small 10925 1 3 [] []) ∧
    ∃ t, exec .extract State.reset = .next t ∧ errField t.status = errCode .config :=
  ⟨bad_of (by decide), bad_of (by decide), good_of (by decide), bad_of (by decide), good_of (by decide), bad_of (by decide),
    good_of (by decide), next_of_got (f := fun t => errField t.status) (by decide)⟩

/-- R200: a next state for each code of each command. -/
theorem witness_ErrorCodesOfEachCommand :
    (∃ t, exec .embed carrier = .next t ∧ errField t.status = 0) ∧ (∃ t, exec .embed tiny = .next t ∧ errField t.status = 1) ∧
    (∃ t, exec .extract tiny = .next t ∧ errField t.status = 0) ∧
    (∃ t, exec .capacity State.reset = .next t ∧ errField t.status = 3) ∧
    (∃ t, exec .serByte (ser none 0 5) = .next t ∧ errField t.status = 5) ∧
    (∃ t, exec .pixSelect State.reset = .next t ∧ errField t.status = 3) ∧
    (∃ t, completion (accept 9 State.reset) = .next t ∧ errField t.status = 4) :=
  ⟨next_of_got (f := fun t => errField t.status) (by decide), next_of_got (f := fun t => errField t.status) (by decide),
    next_of_got (f := fun t => errField t.status) (by decide), next_of_got (f := fun t => errField t.status) (by decide),
    next_of_got (f := fun t => errField t.status) (by decide), next_of_got (f := fun t => errField t.status) (by decide),
    next_of_got (f := fun t => errField t.status) (by decide)⟩

theorem witness_ErrorsArePrecise :
    (∃ t, completion (accept 1 tiny) = .next t ∧ errField t.status = errCode .capacity) ∧
    (∃ t, completion (accept 0 tiny) = .next t ∧ errField t.status = errCode .illegal) :=
  ⟨next_of_got (f := fun t => errField t.status) (by decide), next_of_got (f := fun t => errField t.status) (by decide)⟩

theorem witness_EachCommandWritesOnlyItsOwn :
    (∃ t, exec .extract marked = .next t ∧ t.textLen = 1) ∧ (∃ t, exec .chanExtract marked = .next t ∧ t.textLen = 1) :=
  ⟨next_of_got (f := fun t => t.textLen) (by decide), next_of_got (f := fun t => t.textLen) (by decide)⟩

/-- Two states that differ in STATUS, every result register and PEND; a next state and a fault. -/
theorem witness_NoCommandSeesEarlierResults :
    (∃ t, exec .extract marked = .next t ∧ t.sentPos = 8) ∧
    marked.pix = { marked with status := 0x32, result := 7, procCount := 1, sentPos := 3, pend := 9 }.pix ∧
    marked ≠ { marked with status := 0x32, result := 7, procCount := 1, sentPos := 3, pend := 9 } ∧
    faultOf (exec .capacity (small 1 1 3 [] [])) = some .uninit ∧
    (∃ t, exec .embed { tiny with procCount := 9, capBits := 9, reqBits := 9 } = .next t ∧
      (errField t.status, t.reqBits) = (errCode .capacity, 40)) :=
  ⟨next_of_got (f := fun t => t.sentPos) (by decide), rfl, by decide, by decide,
    next_of_got (f := fun t => (errField t.status, t.reqBits)) (by decide)⟩

theorem witness_ReservedOffsetsReadZero : (0x38 ≤ (0x38#8).toNat ∧ (0x38#8).toNat % 4 = 0) ∧
    (0x38 ≤ (0xFC#8).toNat ∧ (0xFC#8).toNat % 4 = 0) := by decide

theorem witness_RegistersReadAtTheirOffsets : busyBit marked.status = false ∧
    got (hostRegRead 0x14 4 marked) (fun t => t.lastRead) = some (some 1) := by decide

theorem witness_InputRegistersStoreTheirBits : busyBit State.reset.status = false ∧
    got (hostRegWrite 0x08 4 0xFFFFFFFF State.reset) (fun t => readReg .width t) = some 0x7FFF := by decide

/-- The last location and the first past it, written and unwritten. -/
theorem witness_MemoryPortsReadAndWrite : busyBit State.reset.status = false ∧
    65535 < State.reset.params.pixBytes.val ∧ State.reset.params.pixBytes.val ≤ 65536 ∧
    4095 < State.reset.params.textDepth.val ∧ State.reset.params.textDepth.val ≤ 4096 ∧
    Memory.find { State.reset with pix := [(65535, 7)] }.pix 65535 = some 7 ∧
    Memory.find { State.reset with txt := [(4095, 7)] }.txt 4095 = some 7 ∧
    Memory.find State.reset.pix 65535 = none ∧ Memory.find State.reset.txt 4095 = none := by decide

/-- R213: each of the two refusals is reached. -/
theorem witness_RefusalsAreTheTwoCases :
    refusalOf (step { State.reset with host := [.regRead 0x02 4] }) = some .partialRegisterAccess ∧
    refusalOf (step { accept 1 State.reset with host := [.pixRead 0], turns := [.host] }) = some .memoryAccessWhileBusy := by
  decide

/-- R66: each read point is reached: EMBED's text, EMBED's image, EXTRACT, CAPACITY and SER_BYTE. -/
theorem witness_FaultsAreTheReadPoints :
    faultOf (completion (accept 1 { small 1 1 3 [0, 0, 0] [] with textLen := 1 })) = some .uninit ∧
    faultOf (completion (accept 1 (small 1 1 3 [0, 0] []))) = some .uninit ∧
    faultOf (completion (accept 2 (small 1 1 3 [0, 0] []))) = some .uninit ∧
    faultOf (completion (accept 3 (small 1 1 3 [0, 0] []))) = some .uninit ∧
    faultOf (completion (accept 4 (ser none 1 0))) = some .uninit := by decide

/-- Each is set by the first step, from a state where the engine, or the host, has that move. -/
theorem witness_FaultSetAndRefusalMarkAreSetAtTheirPoints :
    (runsTo 0 (accept 3 (small 1 1 3 [] [])) (accept 3 (small 1 1 3 [] [])) ∧
      EngineMovesNext (accept 3 (small 1 1 3 [] [])) ∧ AtReadPoint (accept 3 (small 1 1 3 [] [])) ∧
      Fault.uninit ∈ faultSet 1 (accept 3 (small 1 1 3 [] []))) ∧
    (HostMovesNext { State.reset with host := [.regRead 0x02 4] } ∧
      HostAccessWithoutMeaning { State.reset with host := [.regRead 0x02 4] } ∧
      refusalMark 1 { State.reset with host := [.regRead 0x02 4] } = true) :=
  ⟨⟨rfl, ⟨by decide, .inl rfl⟩, .inr (.inr (.inl ⟨by decide, good_of (by decide), not_image_of (by decide)⟩)), by decide⟩,
    .inr ⟨rfl, by decide⟩, ⟨_, _, rfl, .inl ⟨0x02, 4, .inl rfl, by decide⟩⟩, by decide⟩

theorem witness_HostReadsHaveNoSideEffect :
    (∃ t, hostRegRead 0x04 4 State.reset = .next t ∧ t.lastRead = some 0) ∧
    (∃ t, hostPixRead 65536 State.reset = .next t ∧ t.lastRead = some 0) ∧
    (∃ t, hostTxtRead 4096 State.reset = .next t ∧ t.lastRead = some 0) ∧
    (∃ t, hostWait State.reset = .next t ∧ t.lastRead = some 0) :=
  ⟨next_of_got (f := fun t => t.lastRead) (by decide), next_of_got (f := fun t => t.lastRead) (by decide),
    next_of_got (f := fun t => t.lastRead) (by decide), next_of_got (f := fun t => t.lastRead) (by decide)⟩

theorem witness_RunLineRunsTheCommand : busyBit (State.reset.withProgram [.RUN .sentMatch]).status = false ∧
    (State.reset.withProgram [.RUN .sentMatch]).turns = [] ∧
    (State.reset.withProgram [.RUN .sentMatch]).host = expand (.RUN .sentMatch) ++ [] := by decide

/-- Two polls before the completion. -/
theorem witness_WaitEndsWithTheCompletion :
    Inv { accept 8 State.reset with host := [.wait], turns := [.host, .host] } ∧
    busyBit (accept 8 State.reset).status = true ∧ [Turn.host, .host] = List.replicate 2 .host :=
  ⟨{ pixWf := by decide, txtWf := by decide, pixInside := by decide, txtInside := by decide, statusOk := .inr (.inl rfl),
     capacityOk := by decide, scanOk := .inl rfl }, by decide, rfl⟩

end Sys2Proof.Tests
end

section
/-! PROOFS. The register port at a register's offset and at a reserved one, and the statements about it (R23, R29,
R42). -/

namespace Sys2Proof.Machine

/-! ## Register accesses by register -/

/-- A whole word written at a register's offset (R43, R67). -/
theorem hostRegWrite_regOffset (r : Reg) (v : Word) (s : State) :
    hostRegWrite (regOffset r) 4 v s = .next (if isBusy s then s else writeReg r v s) := by
  rw [hostRegWrite, if_pos (wholeAligned_regOffset r), regAt_regOffset]
  exact (apply_ite Host.Outcome.next _ _ _).symm

/-- A whole word read at a register's offset, for a register that R43 leaves specified. -/
theorem hostRegRead_regOffset_of_specified {r : Reg} (h : unspecifiedWhileBusy r = false) (s : State) :
    hostRegRead (regOffset r) 4 s = .next (returnValue (readReg r s) s) := by
  rw [hostRegRead, if_pos (wholeAligned_regOffset r), regAt_regOffset]
  exact if_neg (by simp [h])

/-- The last register, BITS_SCANNED, stands at 0x34 (R20). -/
theorem toNat_regOffset_le (r : Reg) : (regOffset r).toNat ≤ 0x34 := by cases r <;> decide

theorem regAt_of_reserved {offset : BitVec 8} (h : 0x38 ≤ offset.toNat) : regAt offset = none := by
  rw [regAt, List.find?_eq_none]
  intro r _ hr
  have hle := toNat_regOffset_le r
  rw [beq_iff_eq.mp hr] at hle
  omega

theorem wholeAligned_four {offset : BitVec 8} (h : offset.toNat % 4 = 0) : wholeAligned offset 4 = true := by
  simp [wholeAligned, h]

/-- The registers of access right R (R20). -/
theorem writeReg_readOnly {r : Reg}
    (h : r ∈ [Reg.status, .result, .procCount, .capBits, .reqBits, .sentPos, .bitsScanned]) (v : Word) (s : State) :
    writeReg r v s = s := by
  cases r with
  | status | result | procCount | capBits | reqBits | sentPos | bitsScanned => rfl
  | cmd | width | height | channels | textLen | opa | opb => exact absurd h (by decide)

/-! ## The statements -/

/-- Settles O5: CMD is the register at offset 0, whose write while BUSY = 0 is `accept`. -/
theorem acceptanceLatchesTheWord : Obligations.AcceptanceLatchesTheWord := by
  unfold Obligations.AcceptanceLatchesTheWord
  refine ⟨fun s w hb => ⟨accept w s, ?_, rfl, ?_, engineMove_of_busy (isBusy_accept w s)⟩, fun s w hb => ?_,
    fun s => ⟨returnValue 0 s, hostRegRead_regOffset_of_specified (r := .cmd) rfl s, rfl⟩⟩
  · exact (hostRegWrite_regOffset .cmd w s).trans (by rw [isBusy, hb]; rfl)
  · rw [readReg, accept_status, statusAccepted_eq]
    rfl
  · exact (hostRegWrite_regOffset .cmd w s).trans (by rw [isBusy, hb]; rfl)

/-- Settles O45: no register stands at or above 0x38. -/
theorem reservedOffsetsReadZero : Obligations.ReservedOffsetsReadZero := by
  unfold Obligations.ReservedOffsetsReadZero
  intro s offset v hres halign
  rw [hostRegRead, hostRegWrite, if_pos (wholeAligned_four halign), if_pos (wholeAligned_four halign),
    regAt_of_reserved hres]
  exact ⟨rfl, rfl⟩

/-- Settles O47: `writeReg` leaves the read-only registers alone, and STATUS stores eight bits. -/
theorem readOnlyRegistersIgnoreWrites : Obligations.ReadOnlyRegistersIgnoreWrites := by
  unfold Obligations.ReadOnlyRegistersIgnoreWrites
  refine ⟨fun s v r hr => ?_, fun s i hi => ?_⟩
  · rw [hostRegWrite_regOffset, writeReg_readOnly hr, ite_self]
  · rw [readReg, BitVec.getLsbD_setWidth, BitVec.getLsbD_of_ge _ _ hi, Bool.and_false]

end Sys2Proof.Machine
end

section
/-! PROOFS. No command reads what an earlier command left in STATUS, the result registers or PEND (R46). -/

namespace Sys2Proof.Machine

/-! ## A state with the results of another -/

/-- `s` with everything that R46 keeps a command from seeing taken from `r`: STATUS, the result registers and PEND, and
the model's own fields. The build, the input registers and the memories are those of `s`. -/
def State.withResultsOf (s r : State) : State :=
  { r with
    params := s.params, width := s.width, height := s.height, channels := s.channels, textLen := s.textLen
    opa := s.opa, opb := s.opb, pix := s.pix, txt := s.txt }

@[simp] theorem withResultsOf_pix (s r : State) : (s.withResultsOf r).pix = s.pix := rfl
@[simp] theorem withResultsOf_txt (s r : State) : (s.withResultsOf r).txt = s.txt := rfl

/-! Nothing a command computes with sees the difference. -/

@[simp] theorem configError_withResultsOf (i : Instr) (s r : State) :
    configError i (s.withResultsOf r) = configError i s := rfl
@[simp] theorem imgC_withResultsOf (s r : State) : imgC (s.withResultsOf r) = imgC s := rfl
@[simp] theorem textCount_withResultsOf (s r : State) : textCount (s.withResultsOf r) = textCount s := rfl
@[simp] theorem channelOperand_withResultsOf (s r : State) :
    channelOperand (s.withResultsOf r) = channelOperand s := rfl
@[simp] theorem payloadBitOperand_withResultsOf (s r : State) :
    payloadBitOperand (s.withResultsOf r) = payloadBitOperand s := rfl
@[simp] theorem indexOperand_withResultsOf (s r : State) : indexOperand (s.withResultsOf r) = indexOperand s := rfl
@[simp] theorem redOperand_withResultsOf (s r : State) : redOperand (s.withResultsOf r) = redOperand s := rfl
@[simp] theorem greenOperand_withResultsOf (s r : State) : greenOperand (s.withResultsOf r) = greenOperand s := rfl
@[simp] theorem blueOperand_withResultsOf (s r : State) : blueOperand (s.withResultsOf r) = blueOperand s := rfl
@[simp] theorem alphaOperand_withResultsOf (s r : State) : alphaOperand (s.withResultsOf r) = alphaOperand s := rfl
@[simp] theorem windowOperand_withResultsOf (s r : State) : windowOperand (s.withResultsOf r) = windowOperand s := rfl
@[simp] theorem imageWritten_withResultsOf (s r : State) : imageWritten (s.withResultsOf r) = imageWritten s := rfl
@[simp] theorem textWritten_withResultsOf (s r : State) : textWritten (s.withResultsOf r) = textWritten s := rfl
@[simp] theorem payload_withResultsOf (s r : State) : payload (s.withResultsOf r) = payload s := rfl
@[simp] theorem slots_withResultsOf (s r : State) : slots (s.withResultsOf r) = slots s := rfl
@[simp] theorem procPixels_withResultsOf (s r : State) : procPixels (s.withResultsOf r) = procPixels s := rfl
@[simp] theorem payloadFits_withResultsOf (s r : State) : payloadFits (s.withResultsOf r) = payloadFits s := rfl
@[simp] theorem recovered_withResultsOf (s r : State) : recovered (s.withResultsOf r) = recovered s := rfl

/-! ## Outcomes that agree -/

/-- `t` and `v`, both after a completion of `i`, agree on the error code, the memories and TEXT_LEN, and on the results
that `i` wrote: all of its results without an error, the counts also beside EMBED's CAPACITY (R204). -/
structure SameWrites (i : Instr) (t v : State) : Prop where
  pix : t.pix = v.pix
  txt : t.txt = v.txt
  textLen : t.textLen = v.textLen
  err : errField t.status = errField v.status
  counts : (errField t.status = errCode .none ∧ (i = .embed ∨ i = .capacity) ∨
      errField t.status = errCode .capacity ∧ i = .embed) →
    t.procCount = v.procCount ∧ t.capBits = v.capBits ∧ t.reqBits = v.reqBits
  result : errField t.status = errCode .none → i ≠ .embed → i ≠ .extract → t.result = v.result
  scan : errField t.status = errCode .none → i = .extract → t.sentPos = v.sentPos ∧ t.bitsScanned = v.bitsScanned ∧
    sfoundBit t.status = sfoundBit v.status ∧ truncBit t.status = truncBit v.status

/-- Two outcomes of `i` that are the same fault, or next states that agree on what `i` wrote. -/
inductive SameOutcome (i : Instr) : Result → Result → Prop
  | fault (f : Fault) : SameOutcome i (.fault f) (.fault f)
  | next {t v : State} (h : SameWrites i t v) : SameOutcome i (.next t) (.next v)

theorem SameOutcome.fault_iff {i : Instr} {a b : Result} (h : SameOutcome i a b) (f : Fault) :
    a = .fault f ↔ b = .fault f := by
  cases h with
  | fault g => exact Iff.rfl
  | next h => exact ⟨nofun, nofun⟩

theorem SameOutcome.exists_next {i : Instr} {b : Result} {t : State} (h : SameOutcome i (.next t) b) :
    ∃ v, b = .next v ∧ SameWrites i t v := by
  cases h with
  | next h => exact ⟨_, rfl, h⟩

/-- An error that writes nothing: every one but EMBED's CAPACITY. -/
theorem sameOutcome_raise (i : Instr) {e : ErrCode} (hn : e ≠ .none) (hc : e ≠ .capacity) (s r : State) :
    SameOutcome i (raise e s) (raise e (s.withResultsOf r)) :=
  .next {
    pix := rfl
    txt := rfl
    textLen := rfl
    err := by simp
    counts := by simp [errCode_eq_iff, hn, hc]
    result := by simp [errCode_eq_iff, hn]
    scan := by simp [errCode_eq_iff, hn] }

/-- A command that ends with RESULT as its only result. -/
theorem sameOutcome_setResult {i : Instr} (hemb : i ≠ .embed) (hcap : i ≠ .capacity) (hext : i ≠ .extract) (x : Word)
    (s r : State) : SameOutcome i (finish (setResult x s)) (finish (setResult x (s.withResultsOf r))) :=
  .next {
    pix := rfl
    txt := rfl
    textLen := rfl
    err := by simp
    counts := by simp [errCode_eq_iff, hemb, hcap]
    result := fun _ _ _ => rfl
    scan := fun _ h => absurd h hext }

/-- CAPACITY's results: RESULT and the counts. -/
theorem sameOutcome_setResult_setCounts (x : Word) (p n : Nat) (s r : State) :
    SameOutcome .capacity (finish (setResult x (setCounts p n s)))
      (finish (setResult x (setCounts p n (s.withResultsOf r)))) :=
  .next {
    pix := rfl
    txt := rfl
    textLen := rfl
    err := by simp
    counts := fun _ => ⟨rfl, rfl, rfl⟩
    result := fun _ _ _ => rfl
    scan := nofun }

/-- EMBED's counts and pixel memory, with its CAPACITY error, which leaves pixel memory alone (R204), or without one. -/
theorem sameOutcome_setCounts_pix (e : ErrCode) (m : List Host.Cell) (p n : Nat) (s r : State) :
    SameOutcome .embed (raise e { setCounts p n s with pix := m })
      (raise e { setCounts p n (s.withResultsOf r) with pix := m }) :=
  .next {
    pix := rfl
    txt := rfl
    textLen := rfl
    err := by simp
    counts := fun _ => ⟨rfl, rfl, rfl⟩
    result := fun _ h => absurd rfl h
    scan := nofun }

/-- EXTRACT's results: text memory, TEXT_LEN, the scan registers and the two flags. -/
theorem sameOutcome_deliver (D0 : List Bool) (pos scanned : Nat) (found : Bool) (s r : State) :
    SameOutcome .extract (finish (deliver D0 pos scanned found s))
      (finish (deliver D0 pos scanned found (s.withResultsOf r))) :=
  .next {
    pix := rfl
    txt := rfl
    textLen := rfl
    err := by simp
    counts := by simp [errCode_eq_iff]
    result := fun _ _ h => absurd rfl h
    scan := fun _ _ => by simp }

/-! ## The commands: both states take the same branch -/

/-- A test that reads the same in both states sends both into the same branch. -/
theorem SameOutcome.ite {i : Instr} {c : Prop} [Decidable c] {a b a' b' : Result} (ha : SameOutcome i a a')
    (hb : SameOutcome i b b') : SameOutcome i (if c then a else b) (if c then a' else b') := by
  by_cases hc : c
  · rwa [if_pos hc, if_pos hc]
  · rwa [if_neg hc, if_neg hc]

theorem execChanEmbed_sameOutcome (s r : State) :
    SameOutcome .chanEmbed (execChanEmbed s) (execChanEmbed (s.withResultsOf r)) :=
  sameOutcome_setResult (by decide) (by decide) (by decide) _ s r

theorem execChanExtract_sameOutcome (s r : State) :
    SameOutcome .chanExtract (execChanExtract s) (execChanExtract (s.withResultsOf r)) :=
  sameOutcome_setResult (by decide) (by decide) (by decide) _ s r

theorem execSentMatch_sameOutcome (s r : State) :
    SameOutcome .sentMatch (execSentMatch s) (execSentMatch (s.withResultsOf r)) :=
  sameOutcome_setResult (by decide) (by decide) (by decide) _ s r

theorem execPixSelect_sameOutcome (s r : State) :
    SameOutcome .pixSelect (execPixSelect s) (execPixSelect (s.withResultsOf r)) := by
  simp only [execPixSelect, configError_withResultsOf, imgC_withResultsOf, redOperand_withResultsOf,
    greenOperand_withResultsOf, blueOperand_withResultsOf, alphaOperand_withResultsOf]
  have hresult (x : Word) := sameOutcome_setResult (i := .pixSelect) (by decide) (by decide) (by decide) x s r
  exact .ite (sameOutcome_raise _ (by decide) (by decide) s r) (.ite (hresult 1) (hresult _))

theorem execSerByte_sameOutcome (s r : State) :
    SameOutcome .serByte (execSerByte s) (execSerByte (s.withResultsOf r)) := by
  simp only [execSerByte, configError_withResultsOf, textCount_withResultsOf, indexOperand_withResultsOf,
    withResultsOf_txt]
  have hresult (x : Word) := sameOutcome_setResult (i := .serByte) (by decide) (by decide) (by decide) x s r
  have hrange := sameOutcome_raise .serByte (e := .range) (by decide) (by decide) s r
  refine .ite (sameOutcome_raise _ (by decide) (by decide) s r) (.ite hrange (.ite ?_ ?_))
  · cases Memory.find s.txt (indexOperand s) with
    | none => exact .fault .uninit
    | some w => exact .ite (hresult _) (sameOutcome_raise _ (by decide) (by decide) s r)
  · cases sent[indexOperand s - textCount s]? with
    | none => exact hrange
    | some b => exact hresult _

theorem execCapacity_sameOutcome (s r : State) :
    SameOutcome .capacity (execCapacity s) (execCapacity (s.withResultsOf r)) := by
  simp only [execCapacity, configError_withResultsOf, imageWritten_withResultsOf, payloadFits_withResultsOf,
    procPixels_withResultsOf, textCount_withResultsOf]
  exact .ite (sameOutcome_raise _ (by decide) (by decide) s r)
    (.ite (.fault .uninit) (sameOutcome_setResult_setCounts _ _ _ s r))

theorem execEmbed_sameOutcome (s r : State) :
    SameOutcome .embed (execEmbed s) (execEmbed (s.withResultsOf r)) := by
  simp only [execEmbed, configError_withResultsOf, textWritten_withResultsOf, payload_withResultsOf,
    imageWritten_withResultsOf, payloadFits_withResultsOf, procPixels_withResultsOf, textCount_withResultsOf,
    slots_withResultsOf, withResultsOf_pix]
  refine .ite (sameOutcome_raise _ (by decide) (by decide) s r) (.ite (.fault .uninit) ?_)
  cases encodeText (payload s) with
  | none => exact sameOutcome_raise _ (by decide) (by decide) s r
  | some S =>
    exact .ite (.fault .uninit)
      (.ite (sameOutcome_setCounts_pix .capacity s.pix _ _ s r) (sameOutcome_setCounts_pix .none _ _ _ s r))

theorem execExtract_sameOutcome (s r : State) :
    SameOutcome .extract (execExtract s) (execExtract (s.withResultsOf r)) := by
  simp only [execExtract, configError_withResultsOf, imageWritten_withResultsOf, recovered_withResultsOf]
  refine .ite (sameOutcome_raise _ (by decide) (by decide) s r) (.ite (.fault .uninit) ?_)
  cases firstMatch (recovered s) with
  | none => exact sameOutcome_deliver _ _ _ _ s r
  | some p => exact sameOutcome_deliver _ _ _ _ s r

/-- What a command does and writes does not depend on the results it finds (R46). -/
theorem exec_sameOutcome (i : Instr) (s r : State) : SameOutcome i (exec i s) (exec i (s.withResultsOf r)) := by
  cases i with
  | embed => exact execEmbed_sameOutcome s r
  | extract => exact execExtract_sameOutcome s r
  | capacity => exact execCapacity_sameOutcome s r
  | serByte => exact execSerByte_sameOutcome s r
  | chanEmbed => exact execChanEmbed_sameOutcome s r
  | chanExtract => exact execChanExtract_sameOutcome s r
  | pixSelect => exact execPixSelect_sameOutcome s r
  | sentMatch => exact execSentMatch_sameOutcome s r

/-! ## The statement -/

/-- Settles O44: the second state is the first with other results, and `exec` gives both the same outcome. -/
theorem noCommandSeesEarlierResults : Obligations.NoCommandSeesEarlierResults := by
  unfold Obligations.NoCommandSeesEarlierResults
  intro i s u hparams hwidth hheight hchannels htextLen hopa hopb hpix htxt
  have hu : s.withResultsOf u = u := by
    rw [State.withResultsOf, hparams, hwidth, hheight, hchannels, htextLen, hopa, hopb, hpix, htxt]
  have hsame : SameOutcome i (exec i s) (exec i u) := hu ▸ exec_sameOutcome i s u
  refine ⟨hsame.fault_iff, fun t ht => ?_⟩
  obtain ⟨v, hv, hw⟩ := (ht ▸ hsame).exists_next
  exact ⟨v, hv, hw.pix, hw.txt, hw.textLen, hw.err, hw.counts, fun hnone => ⟨hw.result hnone, hw.scan hnone⟩⟩

end Sys2Proof.Machine
end

section
/-! PROOFS. The pixel and text ports while the engine is idle, and the statement about them (R68). -/

namespace Sys2Proof.Machine

/-! ## What each port does with BUSY = 0 -/

section
variable {s : State} (hb : isBusy s = false)
include hb

theorem hostPixWrite_of_not_busy (a : Nat) (v : Byte) :
    hostPixWrite a v s = .next (if a < pixSize s then { s with pix := Memory.store s.pix a v } else s) := by
  rw [hostPixWrite, hb, if_neg Bool.false_ne_true]
  exact (apply_ite Host.Outcome.next _ _ _).symm

theorem hostTxtWrite_of_not_busy (j : Nat) (v : Word) :
    hostTxtWrite j v s = .next (if j < textSize s then { s with txt := Memory.store s.txt j v } else s) := by
  rw [hostTxtWrite, hb, if_neg Bool.false_ne_true]
  exact (apply_ite Host.Outcome.next _ _ _).symm

theorem hostPixRead_of_not_busy (a : Nat) :
    hostPixRead a s = .next (if a < pixSize s then
      (Memory.find s.pix a).elim (returnFreeByte s) fun v => returnValue (v.setWidth 32) s
      else returnValue 0 s) := by
  rw [hostPixRead, hb, if_neg Bool.false_ne_true, apply_ite Host.Outcome.next]
  cases Memory.find s.pix a with
  | none => rfl
  | some v => rfl

theorem hostTxtRead_of_not_busy (j : Nat) :
    hostTxtRead j s = .next (if j < textSize s then
      (Memory.find s.txt j).elim (returnFreeWord s) fun v => returnValue v s
      else returnValue 0 s) := by
  rw [hostTxtRead, hb, if_neg Bool.false_ne_true, apply_ite Host.Outcome.next]
  cases Memory.find s.txt j with
  | none => rfl
  | some v => rfl

end

/-! ## The statement -/

/-- Settles O48: each port by its bound and, for a read, by whether the location is written; a write is a `Memory.store`. -/
theorem memoryPortsReadAndWrite : Obligations.MemoryPortsReadAndWrite := by
  unfold Obligations.MemoryPortsReadAndWrite
  intro s hidle
  have hb : isBusy s = false := hidle
  refine ⟨fun a v ha => ?pixWrite, fun j v hj => ?txtWrite, fun a v ha hf => ?pixWritten, fun j v hj hf => ?txtWritten,
    fun a ha hf => ?pixFree, fun j hj hf => ?txtFree, fun a v ha => ?pixOutside, fun j v hj => ?txtOutside⟩
  case pixWrite =>
    exact ⟨_, (hostPixWrite_of_not_busy hb a v).trans (by rw [if_pos (show a < pixSize s from ha)]), rfl,
      Memory.find_store s.pix a v⟩
  case txtWrite =>
    exact ⟨_, (hostTxtWrite_of_not_busy hb j v).trans (by rw [if_pos (show j < textSize s from hj)]), rfl,
      Memory.find_store s.txt j v⟩
  case pixWritten =>
    rw [hostPixRead_of_not_busy hb, if_pos (show a < pixSize s from ha), hf]
    rfl
  case txtWritten =>
    rw [hostTxtRead_of_not_busy hb, if_pos (show j < textSize s from hj), hf]
    rfl
  case pixFree =>
    rw [hostPixRead_of_not_busy hb, if_pos (show a < pixSize s from ha), hf]
    rfl
  case txtFree =>
    rw [hostTxtRead_of_not_busy hb, if_pos (show j < textSize s from hj), hf]
    rfl
  case pixOutside =>
    have hout : ¬ a < pixSize s := Nat.not_lt.mpr ha
    rw [hostPixWrite_of_not_busy hb, hostPixRead_of_not_busy hb, if_neg hout, if_neg hout]
    exact ⟨rfl, rfl⟩
  case txtOutside =>
    have hout : ¬ j < textSize s := Nat.not_lt.mpr hj
    rw [hostTxtWrite_of_not_busy hb, hostTxtRead_of_not_busy hb, if_neg hout, if_neg hout]
    exact ⟨rfl, rfl⟩

end Sys2Proof.Machine
end

section
/-! PROOFS. A command word is its two fields, the opcode map is a bijection onto the OPCODE values 1 to 8, and so `decode`
inverts `encode` (R90 to R92). -/

namespace Sys2Proof

open Sys2Proof.Laws

/-! ## A word is its two fields -/

theorem toNat_opcodeField (w : Word) : (opcodeField w).toNat = w.toNat % 256 := by
  simp [opcodeField]

theorem toNat_rsvdField (w : Word) : (rsvdField w).toNat = w.toNat / 256 := by
  rw [rsvdField, BitVec.extractLsb'_toNat, Nat.shiftRight_eq_div_pow]
  omega

theorem rsvdField_eq_zero_iff (w : Word) : rsvdField w = 0 ↔ w.toNat / 256 = 0 := by
  rw [← BitVec.toNat_inj, toNat_rsvdField]
  rfl

theorem word_ext {w v : Word} (hrsvd : rsvdField w = rsvdField v) (hop : opcodeField w = opcodeField v) : w = v := by
  have hhigh := congrArg BitVec.toNat hrsvd
  have hlow := congrArg BitVec.toNat hop
  rw [toNat_rsvdField, toNat_rsvdField] at hhigh
  rw [toNat_opcodeField, toNat_opcodeField] at hlow
  exact BitVec.eq_of_toNat_eq (by omega)

/-! ## The opcode map -/

/-- Each row of the map pairs a command with its OPCODE. -/
theorem opcodeMap_row {row : BitVec 8 × Instr} (h : row ∈ opcodeMap) : opcodeOf row.2 = row.1 := by
  revert row
  decide

theorem commandOf_eq_some_iff (op : BitVec 8) (i : Instr) : commandOf op = some i ↔ op = opcodeOf i := by
  constructor
  · intro h
    obtain ⟨row, hfind, rfl⟩ := Option.map_eq_some_iff.1 h
    have hop : row.1 = op := by simpa using List.find?_some hfind
    rw [← hop, opcodeMap_row (List.mem_of_find?_eq_some hfind)]
  · rintro rfl
    cases i <;> rfl

/-- The OPCODE values of the map, as a range. -/
theorem mem_opcodes_iff (op : BitVec 8) : op ∈ opcodeMap.map Prod.fst ↔ 1 ≤ op.toNat ∧ op.toNat ≤ 8 := by
  simp only [opcodeMap, List.map_cons, List.map_nil, List.mem_cons, List.not_mem_nil, or_false, ← BitVec.toNat_inj,
    BitVec.toNat_ofNat]
  omega

theorem exists_commandOf_iff (op : BitVec 8) : (∃ i, commandOf op = some i) ↔ op ∈ opcodeMap.map Prod.fst := by
  rw [← Option.isSome_iff_exists, commandOf, Option.isSome_map, List.find?_isSome, List.mem_map]
  simp only [beq_iff_eq]

/-! ## Decode, encode and legality by the fields -/

theorem decode_eq_ok_iff_fields (w : Word) (i : Instr) :
    decode w = .ok i ↔ rsvdField w = 0 ∧ commandOf (opcodeField w) = some i := by
  unfold decode
  split
  next h =>
    cases hc : commandOf (opcodeField w) with
    | none => simp [h]
    | some j => simp [h]
  next h => exact ⟨nofun, fun hfields => absurd hfields.1 h⟩

theorem wordLegal (i : Instr) : WordLegal.Statement i := by
  cases i with
  | embed => exact WordLegal.embed
  | extract => exact WordLegal.extract
  | capacity => exact WordLegal.capacity
  | serByte => exact WordLegal.serByte
  | chanEmbed => exact WordLegal.chanEmbed
  | chanExtract => exact WordLegal.chanExtract
  | pixSelect => exact WordLegal.pixSelect
  | sentMatch => exact WordLegal.sentMatch

@[simp] theorem decode_encode (i : Instr) : decode (encode i) = .ok i := by
  obtain ⟨-, hrsvd, hcommand⟩ := wordLegal i
  exact (decode_eq_ok_iff_fields _ i).2 ⟨hrsvd, hcommand⟩

/-- A word that decodes to `i` has the two fields of `encode i`. -/
theorem decode_eq_ok_iff (w : Word) (i : Instr) : decode w = .ok i ↔ w = encode i := by
  constructor
  · intro h
    obtain ⟨hrsvd, hcommand⟩ := (decode_eq_ok_iff_fields w i).1 h
    obtain ⟨-, hrsvd', hcommand'⟩ := wordLegal i
    have hop : opcodeField w = opcodeField (encode i) :=
      ((commandOf_eq_some_iff _ i).1 hcommand).trans ((commandOf_eq_some_iff _ i).1 hcommand').symm
    exact word_ext (hrsvd.trans hrsvd'.symm) hop
  · rintro rfl
    exact decode_encode i

theorem legalWord_iff_fields (w : Word) :
    legalWord w = true ↔ rsvdField w = 0 ∧ opcodeField w ∈ opcodeMap.map Prod.fst := by
  rw [mem_opcodes_iff, legalWord, rsvdZero, opcodeListed, Bool.and_eq_true, Bool.and_eq_true, beq_iff_eq,
    decide_eq_true_iff, decide_eq_true_iff]
  rfl

theorem legalWord_iff_decode (w : Word) : legalWord w = true ↔ ∃ i, decode w = .ok i := by
  simp only [legalWord_iff_fields, ← exists_commandOf_iff, decode_eq_ok_iff_fields, exists_and_left]

theorem legalWord_iff_toNat (w : Word) : legalWord w = true ↔ 1 ≤ w.toNat ∧ w.toNat ≤ 8 := by
  rw [legalWord_iff_fields, mem_opcodes_iff, rsvdField_eq_zero_iff, toNat_opcodeField]
  omega

/-! ## The statement -/

/-- Settles O2: decoding and legality are both read off the fields RSVD and OPCODE, and the opcode map lists 1 to 8. -/
theorem decodeAndEncodeAgree : Obligations.DecodeAndEncodeAgree := by
  unfold Obligations.DecodeAndEncodeAgree
  exact ⟨decode_eq_ok_iff, legalWord_iff_decode, legalWord_iff_fields, legalWord_iff_toNat,
    rfl, rfl, rfl, rfl, rfl, rfl, rfl, rfl⟩

end Sys2Proof
end

section
/-! PROOFS. The bits and the length of the encoded stream, decoding as a sum, and SER_BYTE case by case (R102 to R110). -/

namespace Sys2Proof.Machine

open Sys2Proof.Claims

/-! ## Bits of the stream -/

theorem encodeText_eq_none_iff (T : List Word) : encodeText T = none ↔ ∃ w ∈ T, 256 ≤ w.toNat := by
  refine ⟨encodeText_eq_none, fun ⟨w, hw, hbig⟩ => ?_⟩
  cases hT : encodeText T with
  | none => rfl
  | some S => exact absurd ((encodeText_eq_some hT).1 w hw) (Nat.not_lt.mpr hbig)

theorem length_of_encodeText {T : List Word} {S : List Bool} (h : encodeText T = some S) :
    S.length = 8 * (T.length + 5) := by
  rw [(encodeText_eq_some h).2, length_stream, List.length_map]

theorem getLsbD_lowByte (w : Word) {i : Nat} (hi : i < 8) : (lowByte w).getLsbD i = w.getLsbD i := by
  rw [lowByte, BitVec.getLsbD_extractLsb', decide_eq_true hi, Bool.true_and, Nat.zero_add]

/-- Bit k of a stream lies in byte floor(k/8) of the payload with the sentinel appended (R102). -/
theorem getElem?_stream (T : List Byte) (k : Nat) :
    (stream T)[k]? = ((T ++ sent)[k / 8]?).map fun b => b.getLsbD (7 - k % 8) :=
  getElem?_flatMap_bits8 (T ++ sent) k

theorem getElem?_stream_payload {T : List Word} {w : Word} {k : Nat} (hw : T[k / 8]? = some w) :
    (stream (T.map lowByte))[k]? = some (w.getLsbD (7 - k % 8)) := by
  have hbyte : (T.map lowByte ++ sent)[k / 8]? = some (lowByte w) := by
    rw [List.getElem?_append_left (by simpa using (List.getElem?_eq_some_iff.1 hw).1), List.getElem?_map, hw]
    rfl
  rw [getElem?_stream, hbyte, Option.map_some, getLsbD_lowByte w (by omega)]

theorem getElem?_stream_sent {T : List Byte} {b : Byte} {k : Nat} (hk : T.length ≤ k / 8)
    (hb : sent[k / 8 - T.length]? = some b) : (stream T)[k]? = some (b.getLsbD (7 - k % 8)) := by
  rw [getElem?_stream, List.getElem?_append_right hk, hb, Option.map_some]

/-! ## The CONFIG check of TEXT_LEN -/

theorem configError_serByte_iff (s : State) :
    configError .serByte s = true ↔ s.params.textDepth.val < s.textLen.toNat := by
  rw [← configBad_iff]
  simp [ConfigBad]

theorem configError_serByte_eq_false {s : State} (h : TextConfigured s) : configError .serByte s = false :=
  Bool.eq_false_iff.2 fun hc => Nat.not_lt.mpr h ((configError_serByte_iff s).1 hc)

/-- A command that checks TEXT_LEN (R202) goes on only when the text fits in text memory. -/
theorem textConfigured_of_configError {i : Instr} {s : State} (hi : checksTextLen i = true)
    (h : configError i s = false) : TextConfigured s := by
  simp only [configError, Bool.or_eq_false_iff, hi, Bool.true_and, decide_eq_false_iff_not] at h
  obtain ⟨⟨-, htext⟩, -⟩ := h
  exact Nat.not_lt.mp htext

/-! ## REQ_BITS -/

/-- CAPACITY without an error wrote REQ_BITS, with no wrap (R103, R151). -/
theorem toNat_reqBits_of_execCapacity {s t : State} (h : execCapacity s = .next t)
    (herr : errField t.status = errCode .none) : t.reqBits.toNat = 8 * (s.textLen.toNat + 5) := by
  rcases execCapacity_cases s with ⟨-, hexec⟩ | ⟨-, -, hexec⟩ | ⟨hc, -, hexec⟩
  · obtain rfl := Host.Outcome.next.inj (hexec.symm.trans h)
    rw [complete_status, errField_statusCompleted, errCode_eq_iff] at herr
    cases herr
  · cases hexec.symm.trans h
  · obtain rfl := Host.Outcome.next.inj (hexec.symm.trans h)
    obtain ⟨-, -, hreq⟩ := toNat_counts (textConfigured_of_configError rfl hc)
    exact hreq

/-! ## SER_BYTE, an equation per case -/

theorem execSerByte_of_configError {s : State} (hc : configError .serByte s = true) :
    execSerByte s = .next (complete .config s) := by
  rw [execSerByte, if_pos hc, raise_eq]

section
variable {s : State} (hc : configError .serByte s = false)
include hc

theorem execSerByte_of_range (hj : textCount s + 5 ≤ indexOperand s) :
    execSerByte s = .next (complete .range s) := by
  rw [execSerByte, hc, if_neg Bool.false_ne_true, if_pos hj, raise_eq]

theorem execSerByte_of_unwritten (hj : indexOperand s < textCount s)
    (hf : Memory.find s.txt (indexOperand s) = none) : execSerByte s = .fault .uninit := by
  rw [execSerByte, hc, if_neg Bool.false_ne_true, if_neg (by omega), if_pos hj, hf]

theorem execSerByte_of_large {w : Word} (hj : indexOperand s < textCount s)
    (hf : Memory.find s.txt (indexOperand s) = some w) (hw : 256 ≤ w.toNat) :
    execSerByte s = .next (complete .encoding s) := by
  have hfits : fitsByte w = false := decide_eq_false (Nat.not_lt.mpr hw)
  rw [execSerByte, hc, if_neg Bool.false_ne_true, if_neg (by omega), if_pos hj, hf]
  simp only [hfits, Bool.false_eq_true, if_false, raise_eq]

theorem execSerByte_of_fits {w : Word} (hj : indexOperand s < textCount s)
    (hf : Memory.find s.txt (indexOperand s) = some w) (hw : w.toNat < 256) :
    execSerByte s = .next (complete .none (setResult w s)) := by
  have hfits : fitsByte w = true := decide_eq_true hw
  rw [execSerByte, hc, if_neg Bool.false_ne_true, if_neg (by omega), if_pos hj, hf]
  simp only [hfits, if_true, setWidth_lowByte hw, finish_eq]

theorem execSerByte_of_sent {b : Byte} (hj : textCount s ≤ indexOperand s)
    (hb : sent[indexOperand s - textCount s]? = some b) :
    execSerByte s = .next (complete .none (setResult (b.setWidth 32) s)) := by
  have hlt : indexOperand s - textCount s < 5 := (List.getElem?_eq_some_iff.1 hb).1
  rw [execSerByte, hc, if_neg Bool.false_ne_true, if_neg (by omega), if_neg (by omega), hb]
  exact finish_eq _

end

/-! ## The statements -/

/-- Settles O14: the stream is the bytes of the payload, then those of the sentinel, bit by bit. -/
theorem encodedStreamBits : Obligations.EncodedStreamBits := by
  unfold Obligations.EncodedStreamBits
  intro T
  refine ⟨encodeText_eq_none_iff T, fun S hS => ⟨length_of_encodeText hS, fun k hk => ?_⟩⟩
  obtain ⟨-, rfl⟩ := encodeText_eq_some hS
  refine ⟨fun w hw => getElem?_stream_payload hw, fun hsent => ?_⟩
  have hlt : k / 8 - T.length < sent.length := by
    rw [length_sent]
    omega
  have hb := List.getElem?_eq_getElem hlt
  exact ⟨_, hb, getElem?_stream_sent (by simpa using hsent) (by rw [List.length_map, hb])⟩

/-- Settles O15: the length of a stream depends on the payload's length alone, and CAPACITY counts from that. -/
theorem streamLengthIsReqBits : Obligations.StreamLengthIsReqBits := by
  unfold Obligations.StreamLengthIsReqBits
  refine ⟨fun T S hS => ?_, rfl, length_sentBits, fun s t S hexec herr hS => ?_⟩
  · have hlen := length_of_encodeText hS
    exact ⟨hlen, by omega⟩
  · rw [length_of_encodeText hS, length_payload]
    exact toNat_reqBits_of_execCapacity hexec herr

/-- Settles O16: every index below len(D)/8 holds a decoded byte, whose bits are the terms of the sum. -/
theorem decodeIsTheByteSum : Obligations.DecodeIsTheByteSum := by
  unfold Obligations.DecodeIsTheByteSum
  refine fun D _ => ⟨length_decodeBits D, fun j hj => ?_⟩
  have hb := List.getElem?_eq_getElem (l := decodeBits D) (by rwa [length_decodeBits])
  rw [hb, Option.map_some, toNat_decodeBits hb]

/-- Settles O18: each case is its equation for `execSerByte`, and what a completion writes. -/
theorem serByteReadsByteOfTheStream : Obligations.SerByteReadsByteOfTheStream := by
  unfold Obligations.SerByteReadsByteOfTheStream
  intro s
  have hok : TextConfigured s → configError .serByte s = false := configError_serByte_eq_false
  refine ⟨fun hbad => ?config, fun hcfg hj => ?range, fun hcfg hj hf => ?uninit, fun w hcfg hj hf hw => ?encoding,
    fun w hcfg hj hf hw => ?payloadByte, fun b hcfg hj hb => ?sentinelByte⟩
  case config =>
    exact ⟨_, execSerByte_of_configError ((configError_serByte_iff s).2 hbad), completed_complete .config s rfl,
      keepsAllButStatus_complete .config s⟩
  case range =>
    exact ⟨_, execSerByte_of_range (hok hcfg) hj, completed_complete .range s rfl, keepsAllButStatus_complete .range s⟩
  case uninit => exact execSerByte_of_unwritten (hok hcfg) hj hf
  case encoding =>
    exact ⟨_, execSerByte_of_large (hok hcfg) hj hf hw, completed_complete .encoding s rfl,
      keepsAllButStatus_complete .encoding s⟩
  case payloadByte =>
    exact ⟨_, execSerByte_of_fits (hok hcfg) hj hf hw, completed_complete .none s rfl, rfl,
      keepsAllButResult_setResult .none w s⟩
  case sentinelByte =>
    exact ⟨_, execSerByte_of_sent (hok hcfg) hj hb, completed_complete .none s rfl, rfl,
      keepsAllButResult_setResult .none (b.setWidth 32) s⟩

end Sys2Proof.Machine
end

section
/-! PROOFS. The channel commands bit by bit: CHAN_EMBED through the bits of `embedBit`, CHAN_EXTRACT through `extractBit`
(R120, R121, R125, R126). -/

namespace Sys2Proof.Machine

open Sys2Proof.Claims

/-! ## The operand v -/

theorem getLsbD_channelOperand (s : State) (i : Nat) :
    (channelOperand s).getLsbD i = (decide (i < 8) && s.opa.getLsbD i) := by
  rw [channelOperand, BitVec.getLsbD_extractLsb', Nat.zero_add]

theorem extractBit_channelOperand (s : State) :
    extractBit (channelOperand s) = decide ((!s.opa.getLsbD 1) = s.opa.getLsbD 0) := by
  rw [extractBit_eq, getLsbD_channelOperand, getLsbD_channelOperand]
  cases s.opa.getLsbD 1 <;> cases s.opa.getLsbD 0 <;> rfl

/-! ## The value of RESULT -/

/-- Zero extension to the 32 bits of RESULT cuts no bit of a byte off. -/
theorem getLsbD_setWidth_byte (b : Byte) (i : Nat) : (b.setWidth 32).getLsbD i = b.getLsbD i := by
  rw [BitVec.getLsbD_setWidth]
  by_cases hi : i < 32
  · rw [decide_eq_true hi, Bool.true_and]
  · rw [decide_eq_false hi, Bool.false_and, BitVec.getLsbD_of_ge _ _ (by omega)]

theorem getLsbD_embedBit_operands (s : State) (i : Nat) :
    (embedBit (channelOperand s) (payloadBitOperand s)).getLsbD i =
      if i = 1 then s.opa.getLsbD 1 ^^ s.opb.getLsbD 0 else decide (i < 8) && s.opa.getLsbD i := by
  rw [getLsbD_embedBit, getLsbD_channelOperand, getLsbD_channelOperand]
  rfl

theorem setWidth_ofBool_decide (p : Prop) [Decidable p] :
    (BitVec.ofBool (decide p)).setWidth 32 = if p then (1 : Word) else 0 := by
  by_cases hp : p
  · rw [if_pos hp, decide_eq_true hp]
    rfl
  · rw [if_neg hp, decide_eq_false hp]
    rfl

/-! ## The statements -/

/-- Settles O20: RESULT is `embedBit` of the operands, zero-extended. -/
theorem chanEmbedChangesBitOneOnly : Obligations.ChanEmbedChangesBitOneOnly := by
  unfold Obligations.ChanEmbedChangesBitOneOnly
  refine fun s => ⟨_, execChanEmbed_eq s, completed_complete .none s rfl, keepsAllButResult_setResult .none _ s,
    fun i => ?_⟩
  rw [complete_result, setResult_result, getLsbD_setWidth_byte, getLsbD_embedBit_operands]

/-- Settles O21: `extractBit` of the operand decides the comparison of the two bits, and RESULT is its value. -/
theorem chanExtractComparesTheLowBits : Obligations.ChanExtractComparesTheLowBits := by
  unfold Obligations.ChanExtractComparesTheLowBits
  refine fun s => ⟨_, execChanExtract_eq s, completed_complete .none s rfl, keepsAllButResult_setResult .none _ s, ?_⟩
  rw [complete_result, setResult_result, extractBit_channelOperand, setWidth_ofBool_decide]

end Sys2Proof.Machine
end

section
/-! PROOFS. The match position as the smallest index of SENT_BITS, and the commands CAPACITY and PIX_SELECT case by case
(R148, R151, R152). -/

namespace Sys2Proof.Machine

open Sys2Proof.Claims

/-! ## The match position -/

/-- The search of R148 from index 0, in the words of the statements. -/
theorem firstMatch_cases (r : List Bool) :
    (∃ p, firstMatch r = some p ∧ SentinelAt r p ∧ ∀ q, q < p → ¬ SentinelAt r q) ∨
    (firstMatch r = none ∧ ∀ q, ¬ SentinelAt r q) := by
  rcases firstMatchFrom_cases 0 r with ⟨p, hp, hat, hlt⟩ | hnone
  · exact .inl ⟨p, by rw [firstMatch, hp, Nat.zero_add], hat, hlt⟩
  · exact .inr hnone

theorem firstMatch_eq_some_iff (r : List Bool) (p : Nat) :
    firstMatch r = some p ↔ SentinelAt r p ∧ ∀ q, q < p → ¬ SentinelAt r q := by
  rcases firstMatch_cases r with ⟨m, hm, hat, hlt⟩ | ⟨hnone, hall⟩
  · rw [hm, Option.some.injEq]
    refine ⟨fun h => h ▸ ⟨hat, hlt⟩, fun ⟨hatp, hltp⟩ => ?_⟩
    have hle : m ≤ p := Nat.not_lt.mp fun hpm => hlt p hpm hatp
    have hge : p ≤ m := Nat.not_lt.mp fun hmp => hltp m hmp hat
    exact Nat.le_antisymm hle hge
  · exact iff_of_false (by simp [hnone]) fun h => hall p h.1

theorem firstMatch_eq_none_iff (r : List Bool) : firstMatch r = none ↔ ∀ q, ¬ SentinelAt r q := by
  rcases firstMatch_cases r with ⟨p, hp, hat, -⟩ | ⟨hnone, hall⟩
  · exact iff_of_false (by simp [hp]) fun h => h p hat
  · exact iff_of_true hnone hall

/-! ## CAPACITY, an equation per case -/

theorem execCapacity_of_configError {s : State} (hc : configError .capacity s = true) :
    execCapacity s = .next (complete .config s) := by
  simpa [hc] using execCapacity_cases s

theorem execCapacity_of_unwritten {s : State} (hc : configError .capacity s = false) (hi : imageWritten s = false) :
    execCapacity s = .fault .uninit := by
  simpa [hc, hi] using execCapacity_cases s

theorem execCapacity_of_written {s : State} (hc : configError .capacity s = false) (hi : imageWritten s = true) :
    execCapacity s = .next (complete .none
      (setResult (if payloadFits s then 1 else 0) (setCounts (procPixels s) (textCount s) s))) := by
  simpa [hc, hi] using execCapacity_cases s

/-! ## PIX_SELECT, an equation per case -/

theorem configError_pixSelect_iff (s : State) :
    configError .pixSelect s = true ↔ s.channels.toNat ≠ 3 ∧ s.channels.toNat ≠ 4 := by
  rw [← configBad_iff]
  simp [ConfigBad]

theorem execPixSelect_of_other {s : State} (h3 : s.channels.toNat ≠ 3) (h4 : s.channels.toNat ≠ 4) :
    execPixSelect s = .next (complete .config s) := by
  simpa [configError_pixSelect_iff, imgC, h3, h4] using execPixSelect_cases s

theorem execPixSelect_of_rgb {s : State} (h3 : s.channels.toNat = 3) :
    execPixSelect s = .next (complete .none (setResult 1 s)) := by
  simpa [configError_pixSelect_iff, imgC, h3] using execPixSelect_cases s

theorem execPixSelect_of_rgba {s : State} (h4 : s.channels.toNat = 4) :
    execPixSelect s = .next (complete .none (setResult
      (if allNonzero (redOperand s) (greenOperand s) (blueOperand s) (alphaOperand s) then 1 else 0) s)) := by
  simpa [configError_pixSelect_iff, imgC, h4] using execPixSelect_cases s

/-- R, G, B and A are the four bytes of OPA, lowest first. -/
theorem allNonzero_operands_iff (s : State) :
    allNonzero (redOperand s) (greenOperand s) (blueOperand s) (alphaOperand s) = true ↔
      ∀ c, c < 4 → s.opa.extractLsb' (8 * c) 8 ≠ 0 := by
  simp only [allNonzero, Bool.and_eq_true, bne_iff_ne]
  constructor
  · rintro ⟨⟨⟨hr, hg⟩, hb⟩, ha⟩ c hc
    have hcases : c = 0 ∨ c = 1 ∨ c = 2 ∨ c = 3 := by omega
    rcases hcases with rfl | rfl | rfl | rfl
    exacts [hr, hg, hb, ha]
  · intro hall
    exact ⟨⟨⟨hall 0 (by omega), hall 1 (by omega)⟩, hall 2 (by omega)⟩, hall 3 (by omega)⟩

/-! ## The statements -/

/-- Settles O28: the search ends at a smallest index of SENT_BITS, and there is only one. -/
theorem firstMatchIsTheSmallestIndex : Obligations.FirstMatchIsTheSmallestIndex := by
  unfold Obligations.FirstMatchIsTheSmallestIndex
  exact fun r => ⟨firstMatch_eq_some_iff r, firstMatch_eq_none_iff r⟩

/-- Settles O26: each case is its equation for `execCapacity`; TEXT_LEN passed the CONFIG check, so no count wraps. -/
theorem capacityReportsTheExactCounts : Obligations.CapacityReportsTheExactCounts := by
  unfold Obligations.CapacityReportsTheExactCounts
  intro s
  rw [not_configBad_iff, configBad_iff, imageLoaded_iff]
  refine ⟨fun hc => ?config, fun hc hi => ?uninit, fun hc hi => ?counts⟩
  case config =>
    exact ⟨_, execCapacity_of_configError hc, completed_complete .config s rfl, keepsAllButStatus_complete .config s⟩
  case uninit => exact execCapacity_of_unwritten hc (Bool.eq_false_iff.2 hi)
  case counts =>
    obtain ⟨hproc, hcap, hreq⟩ := toNat_counts (textConfigured_of_configError rfl hc)
    have hfits : (if payloadFits s then (1 : Word) else 0) =
        if 8 * (s.textLen.toNat + 5) ≤ 3 * procPixels s then 1 else 0 := if_congr (payloadFits_iff s) rfl rfl
    rw [pixelsProcessed_eq]
    exact ⟨_, execCapacity_of_written hc hi, completed_complete .none s rfl, hproc, hcap, hreq, hfits,
      by simp [KeepsInputs], rfl, fun _ => rfl, fun _ => rfl, rfl, rfl⟩

/-- Settles O24: the CONFIG check leaves C = 3 and C = 4, and with C = 4 the skip rule asks for four nonzero bytes. -/
theorem pixSelectEvaluatesTheSkipRule : Obligations.PixSelectEvaluatesTheSkipRule := by
  unfold Obligations.PixSelectEvaluatesTheSkipRule
  intro s
  refine ⟨fun h3 h4 => ?config, fun h3 => ?rgb, fun h4 => ?rgba⟩
  case config =>
    exact ⟨_, execPixSelect_of_other h3 h4, completed_complete .config s rfl, keepsAllButStatus_complete .config s⟩
  case rgb =>
    exact ⟨_, execPixSelect_of_rgb h3, completed_complete .none s rfl, rfl, keepsAllButResult_setResult .none 1 s⟩
  case rgba =>
    refine ⟨_, execPixSelect_of_rgba h4, completed_complete .none s rfl, keepsAllButResult_setResult .none _ s, ?_⟩
    rw [complete_result, setResult_result]
    by_cases hall : allNonzero (redOperand s) (greenOperand s) (blueOperand s) (alphaOperand s) = true
    · exact .inl ⟨if_pos hall, (allNonzero_operands_iff s).1 hall⟩
    · refine .inr ⟨if_neg hall, ?_⟩
      rw [allNonzero_operands_iff] at hall
      push Not at hall
      exact hall

end Sys2Proof.Machine
end

section
/-! PROOFS. EMBED and EXTRACT as whole-buffer operations: EMBED writes every slot of the payload or no pixel byte (R171),
and EXTRACT with no match delivers the whole recovered stream (R173). -/

namespace Sys2Proof.Machine

open Sys2Proof.Claims

/-! ## EMBED: an error leaves pixel memory, success went through every check -/

theorem execEmbed_next_cases {s t : State} (h : execEmbed s = .next t) :
    (errField t.status ≠ errCode .none ∧ t.pix = s.pix) ∨
    ∃ S, configError .embed s = false ∧ encodeText (payload s) = some S ∧ imageWritten s = true ∧
      payloadFits s = true ∧
      t = complete .none { setCounts (procPixels s) (textCount s) s with pix := embedInto s.pix (slots s) S } := by
  have herror : ∀ {e : ErrCode} {u : State}, execEmbed s = .next (complete e u) → e ≠ .none → u.pix = s.pix →
      errField t.status ≠ errCode .none ∧ t.pix = s.pix := fun hexec he hpix => by
    obtain rfl := Host.Outcome.next.inj (hexec.symm.trans h)
    exact ⟨by rwa [complete_status, errField_statusCompleted, Ne, errCode_eq_iff], hpix⟩
  rcases execEmbed_cases s with ⟨-, hexec⟩ | ⟨-, -, hexec⟩ | ⟨-, -, -, hexec⟩ |
    ⟨S, hc, -, hS, ⟨-, hexec⟩ | ⟨-, -, hexec⟩ | ⟨hi, hfits, hexec⟩⟩
  · exact .inl (herror hexec nofun rfl)
  · cases hexec.symm.trans h
  · exact .inl (herror hexec nofun rfl)
  · cases hexec.symm.trans h
  · exact .inl (herror hexec nofun rfl)
  · exact .inr ⟨S, hc, hS, hi, hfits, (Host.Outcome.next.inj (hexec.symm.trans h)).symm⟩

/-- With a payload that fits, every stream bit has its slot (R147). -/
theorem exists_slot_of_payloadFits {s : State} {S : List Bool} {k : Nat} {b : Bool} (hfits : payloadFits s = true)
    (hS : encodeText (payload s) = some S) (hb : S[k]? = some b) : ∃ a, (slots s)[k]? = some a := by
  have hk : k < S.length := (List.getElem?_eq_some_iff.1 hb).1
  have hle := (payloadFits_iff s).1 hfits
  rw [length_of_encodeText hS, length_payload] at hk
  exact ⟨_, List.getElem?_eq_getElem (by rw [length_slots]; omega)⟩

/-- Of a loaded image every slot is written (R66). -/
theorem exists_find_of_slot {s : State} {k a : Nat} (hC : 3 ≤ imgC s) (hi : imageWritten s = true)
    (ha : (slots s)[k]? = some a) : ∃ v, Memory.find s.pix a = some v :=
  (imageWritten_iff s).1 hi a (slot_lt hC (List.mem_of_getElem? ha))

/-- The slot of a stream bit holds `embedBit` of the byte it held before (R170). -/
theorem find_embedInto_slots {s : State} {S : List Bool} {k a : Nat} {v : Byte} {b : Bool} (hC : 3 ≤ imgC s)
    (ha : (slots s)[k]? = some a) (hv : Memory.find s.pix a = some v) (hb : S[k]? = some b) :
    Memory.find (embedInto s.pix (slots s) S) a = some (embedBit v b) := by
  have hnodup : (slots s).Nodup := slotsOf_nodup hC s.pix
  rw [find_embedInto_slot hnodup ha hb, pixRead_eq hv]

/-! ## EXTRACT, an equation for the case of no match -/

theorem configError_extract_eq_false {s : State} (himg : ImageConfigured s)
    (hout : 3 * s.width.toNat * s.height.toNat / 8 ≤ s.params.textDepth.val) : configError .extract s = false := by
  obtain ⟨hC, hbytes⟩ := himg
  rw [← not_configBad_iff]
  rintro (⟨-, h3, h4⟩ | ⟨-, hlt⟩ | ⟨hmem, -⟩ | ⟨-, hlt⟩)
  · exact hC.elim h3 h4
  · exact Nat.not_lt.mpr hbytes hlt
  · simp at hmem
  · exact Nat.not_lt.mpr hout hlt

theorem execExtract_of_no_match {s : State} (hc : configError .extract s = false) (hi : imageWritten s = true)
    (hm : firstMatch (recovered s) = none) :
    execExtract s = .next (complete .none (deliver (recovered s) 0 (recovered s).length false s)) := by
  simpa [hc, hi, hm] using execExtract_cases s

/-! ## What EXTRACT delivers -/

section
variable {D : List Bool} {pos scanned : Nat} {found : Bool} {s : State}

/-- A word of the output is the byte the bits decode to, zero-extended (R65, R105). -/
theorem find_deliver_txt_of_lt {j : Nat} (hj : j < D.length / 8) :
    (Memory.find (deliver D pos scanned found s).txt j).map BitVec.toNat = some (byteSum D j) := by
  have hlen : j < (decodeBits D).length := by rwa [length_decodeBits]
  have hb := List.getElem?_eq_getElem hlen
  rw [deliver_txt, decodeBits_truncate8, find_writeText, if_pos ⟨Nat.zero_le j, by omega⟩, Nat.sub_zero, hb,
    Option.map_some, Option.map_some, BitVec.toNat_setWidth, ← toNat_decodeBits hb, Nat.mod_eq_of_lt (by omega)]

/-- No word past the output changes. -/
theorem find_deliver_txt_of_ge {j : Nat} (hj : D.length / 8 ≤ j) :
    Memory.find (deliver D pos scanned found s).txt j = Memory.find s.txt j := by
  rw [deliver_txt, decodeBits_truncate8, find_writeText, length_decodeBits, if_neg (by omega)]

theorem keepsInputs_complete_deliver (e : ErrCode) : KeepsInputs s (complete e (deliver D pos scanned found s)) := by
  simp [KeepsInputs]

end

/-- 3 * P does not wrap in a 32-bit register (R7). -/
theorem toNat_ofNat_of_le_slots {s : State} {x : Nat} (hx : x ≤ 3 * procPixels s) : (BitVec.ofNat 32 x).toNat = x := by
  have hP := procPixels_le s
  rw [BitVec.toNat_ofNat]
  omega

/-! ## The statements -/

/-- Settles O33: each check that fails ends EMBED before the first pixel write, and past the last check the write loop has a
written slot for every stream bit. -/
theorem embedIsAllOrNothing : Obligations.EmbedIsAllOrNothing := by
  unfold Obligations.EmbedIsAllOrNothing
  intro s t h
  rcases execEmbed_next_cases h with ⟨herr, hpix⟩ | ⟨S, hc, hS, hi, hfits, rfl⟩
  case inl => exact .inr ⟨herr, fun a => by rw [hpix]⟩
  case inr =>
    have hC : 3 ≤ imgC s := by
      have := channels_of_configError rfl hc
      omega
    have hlen : S.length = 8 * (s.textLen.toNat + 5) := by
      rw [length_of_encodeText hS, length_payload, textCount]
    refine .inl ⟨by simp, S, hS, hlen, fun k b hb => ?_⟩
    obtain ⟨a, ha⟩ := exists_slot_of_payloadFits hfits hS hb
    obtain ⟨v, hv⟩ := exists_find_of_slot hC hi ha
    exact ⟨a, v, ha, hv, find_embedInto_slots hC ha hv hb⟩

/-- Settles O37: with no match EXTRACT delivers the recovered stream, whose length is 3 * P. -/
theorem extractIsBestEffort : Obligations.ExtractIsBestEffort := by
  unfold Obligations.ExtractIsBestEffort
  intro s himg hout hload hnone
  have hexec := execExtract_of_no_match (configError_extract_eq_false himg hout) ((imageLoaded_iff s).1 hload)
    ((firstMatch_eq_none_iff _).2 hnone)
  have hlen : 3 * pixelsProcessed s = (recovered s).length := by rw [pixelsProcessed_eq, length_recovered]
  have hle : (recovered s).length ≤ 3 * procPixels s := (length_recovered s).le
  rw [hlen]
  refine ⟨_, hexec, fun j hj => ?text, fun j hj => ?otherText, ?textLen, ?sentPos, ?scanned, ?busy, ?done, ?err,
    ?sfound, ?trunc, keepsInputs_complete_deliver .none, rfl, fun _ => rfl, rfl, rfl, rfl⟩
  case text => rw [complete_txt, find_deliver_txt_of_lt hj]
  case otherText => rw [complete_txt, find_deliver_txt_of_ge hj]
  case textLen =>
    rw [complete_textLen, deliver_textLen, toNat_ofNat_of_le_slots ((Nat.div_le_self _ 8).trans hle)]
  case scanned => rw [complete_bitsScanned, deliver_bitsScanned, toNat_ofNat_of_le_slots hle]
  all_goals simp

end Sys2Proof.Machine
end

section
/-! PROOFS. The error codes a completion can end with: CONFIG exactly where the command's check fails, ILLEGAL exactly for an
illegal word, and otherwise the codes of R200's table (R200, R202, R203). -/

namespace Sys2Proof.Machine

open Sys2Proof.Claims

/-! ## The code of a completion -/

theorem errField_of_next_complete {r : Result} {e : ErrCode} {u t : State} (hr : r = .next (complete e u))
    (h : r = .next t) : errField t.status = errCode e := by
  obtain rfl := Host.Outcome.next.inj (hr.symm.trans h)
  rw [complete_status, errField_statusCompleted]

theorem err_eq_of_next_complete {r : Result} {e f : ErrCode} {u t : State} (h : r = .next t)
    (herr : errField t.status = errCode f) (hr : r = .next (complete e u)) : e = f :=
  errCode_injective ((errField_of_next_complete hr h).symm.trans herr)

/-! ## Illegal words -/

theorem legalWord_eq_false_iff (w : Word) : legalWord w = false ↔
    w.extractLsb' 8 24 ≠ 0 ∨ (w.extractLsb' 0 8).toNat < 1 ∨ 8 < (w.extractLsb' 0 8).toNat := by
  rw [legalWord, rsvdZero, opcodeListed, Bool.and_eq_false_iff, Bool.and_eq_false_iff, beq_eq_false_iff_ne,
    decide_eq_false_iff_not, decide_eq_false_iff_not, Nat.not_le, Nat.not_le]

theorem legalWord_eq_false_of_decode {w : Word} {e : DecodeError} (h : decode w = .error e) : legalWord w = false := by
  rw [Bool.eq_false_iff, Ne, legalWord_iff_decode]
  rintro ⟨i, hi⟩
  cases h.symm.trans hi

/-- R203: the completion of an illegal word. -/
theorem completion_of_illegal {s : State} (h : legalWord s.pend = false) :
    completion s = .next (complete .illegal s) := by
  rcases completion_cases s with ⟨i, hi, -⟩ | ⟨e, -, hexec⟩
  · exact absurd ((legalWord_iff_decode _).2 ⟨i, hi⟩) (Bool.eq_false_iff.1 h)
  · exact hexec

/-! ## The table of R200 -/

/-- The errors R200's table gives a command, with `none` for a completion without one. -/
def errCodes : Instr → List ErrCode
  | .embed => [.none, .capacity, .encoding, .config]
  | .extract | .capacity | .pixSelect => [.none, .config]
  | .serByte => [.none, .encoding, .config, .range]
  | .chanEmbed | .chanExtract | .sentMatch => [.none]

theorem illegal_notMem_errCodes (i : Instr) : .illegal ∉ errCodes i := by cases i <;> decide

/-- R202: a command whose check fails ends with CONFIG before it reads any memory. -/
theorem exec_of_configError {i : Instr} {s : State} (hc : configError i s = true) :
    exec i s = .next (complete .config s) := by
  cases i with
  | embed | extract | capacity | serByte | pixSelect => exact if_pos hc
  | chanEmbed | chanExtract | sentMatch => exact absurd hc Bool.false_ne_true

/-- Past its CONFIG check a command ends with another code of its row. -/
theorem exec_next_err_of_checked {i : Instr} {s t : State} (hc : configError i s = false) (h : exec i s = .next t) :
    ∃ e ∈ errCodes i, e ≠ .config ∧ errField t.status = errCode e := by
  have hend : ∀ {e : ErrCode} {u : State}, exec i s = .next (complete e u) → e ∈ errCodes i → e ≠ .config →
      ∃ e ∈ errCodes i, e ≠ .config ∧ errField t.status = errCode e :=
    fun hexec hmem hne => ⟨_, hmem, hne, errField_of_next_complete hexec h⟩
  cases i with
  | embed =>
    rcases execEmbed_cases s with ⟨hbad, -⟩ | ⟨-, -, hfault⟩ | ⟨-, -, -, hexec⟩ |
      ⟨S, -, -, -, ⟨-, hfault⟩ | ⟨-, -, hexec⟩ | ⟨-, -, hexec⟩⟩
    · cases hc.symm.trans hbad
    · cases hfault.symm.trans h
    · exact hend hexec (by decide) nofun
    · cases hfault.symm.trans h
    · exact hend hexec (by decide) nofun
    · exact hend hexec (by decide) nofun
  | extract =>
    rcases execExtract_cases s with ⟨hbad, -⟩ | ⟨-, -, hfault⟩ | ⟨-, -, p, -, hexec⟩ | ⟨-, -, -, hexec⟩
    · cases hc.symm.trans hbad
    · cases hfault.symm.trans h
    · exact hend hexec (by decide) nofun
    · exact hend hexec (by decide) nofun
  | capacity =>
    rcases execCapacity_cases s with ⟨hbad, -⟩ | ⟨-, -, hfault⟩ | ⟨-, -, hexec⟩
    · cases hc.symm.trans hbad
    · cases hfault.symm.trans h
    · exact hend hexec (by decide) nofun
  | serByte =>
    rcases execSerByte_cases s with ⟨hbad, -⟩ | ⟨-, -, hexec⟩ | ⟨-, -, -, hfault⟩ | ⟨-, -, w, -, -, hexec⟩ |
      ⟨-, -, w, -, -, hexec⟩ | ⟨-, -, b, -, hexec⟩
    · cases hc.symm.trans hbad
    · exact hend hexec (by decide) nofun
    · cases hfault.symm.trans h
    · exact hend hexec (by decide) nofun
    · exact hend hexec (by decide) nofun
    · exact hend hexec (by decide) nofun
  | pixSelect =>
    rcases execPixSelect_cases s with ⟨hbad, -⟩ | ⟨-, hexec⟩ | ⟨-, hexec⟩
    · cases hc.symm.trans hbad
    · exact hend hexec (by decide) nofun
    · exact hend hexec (by decide) nofun
  | chanEmbed => exact hend (execChanEmbed_eq s) (by decide) nofun
  | chanExtract => exact hend (execChanExtract_eq s) (by decide) nofun
  | sentMatch => exact hend (execSentMatch_eq s) (by decide) nofun

/-- A command whose CONFIG check can fail has CONFIG in its row. -/
theorem config_mem_errCodes {i : Instr} {s : State} (hc : configError i s = true) : .config ∈ errCodes i := by
  cases i with
  | embed | extract | capacity | serByte | pixSelect => decide
  | chanEmbed | chanExtract | sentMatch => exact absurd hc Bool.false_ne_true

/-- A completed command has a code of its row, CONFIG exactly where its check failed. -/
theorem exec_next_err {i : Instr} {s t : State} (h : exec i s = .next t) :
    ∃ e ∈ errCodes i, (e = .config ↔ configError i s = true) ∧ errField t.status = errCode e := by
  cases hc : configError i s with
  | true =>
    exact ⟨.config, config_mem_errCodes hc, iff_of_true rfl rfl, errField_of_next_complete (exec_of_configError hc) h⟩
  | false =>
    obtain ⟨e, hmem, hne, herr⟩ := exec_next_err_of_checked hc h
    exact ⟨e, hmem, iff_of_false hne Bool.false_ne_true, herr⟩

/-- A completion has a code of R200, ILLEGAL exactly for an illegal word. -/
theorem completion_next_err {s t : State} (h : completion s = .next t) :
    ∃ e, (e = .illegal ↔ legalWord s.pend = false) ∧ errField t.status = errCode e := by
  rcases completion_cases s with ⟨i, hi, hexec⟩ | ⟨e, he, hexec⟩
  · obtain ⟨e, hmem, -, herr⟩ := exec_next_err (hexec.symm.trans h)
    have hne : e ≠ .illegal := fun heq => illegal_notMem_errCodes i (heq ▸ hmem)
    have hlegal := (legalWord_iff_decode s.pend).2 ⟨i, hi⟩
    exact ⟨e, iff_of_false hne (by simp [hlegal]), herr⟩
  · exact ⟨.illegal, iff_of_true rfl (legalWord_eq_false_of_decode he), errField_of_next_complete hexec h⟩

/-! ## The statements -/

/-- Settles O3: the illegal words are those `decode` refuses, and their completion writes STATUS alone. -/
theorem illegalWordRaisesIllegal : Obligations.IllegalWordRaisesIllegal := by
  unfold Obligations.IllegalWordRaisesIllegal
  intro s hword
  exact ⟨_, completion_of_illegal ((legalWord_eq_false_iff s.pend).2 hword), completed_complete .illegal s rfl,
    keepsAllButStatus_complete .illegal s⟩

/-- Settles O40: a failed check ends every command with CONFIG, and past the check no command has that code. -/
theorem configErrorConditions : Obligations.ConfigErrorConditions := by
  unfold Obligations.ConfigErrorConditions
  intro i s
  rw [configBad_iff]
  refine ⟨fun hc => ⟨_, exec_of_configError hc, completed_complete .config s rfl, keepsAllButStatus_complete .config s⟩,
    fun t ht hconfig => ?_⟩
  obtain ⟨e, -, hiff, herr⟩ := exec_next_err ht
  exact hiff.1 (errCode_injective (herr.symm.trans hconfig))

/-- Settles O41: `errCodes` is the table of R200, no row of which has ILLEGAL. -/
theorem errorCodesOfEachCommand : Obligations.ErrorCodesOfEachCommand := by
  unfold Obligations.ErrorCodesOfEachCommand
  refine ⟨⟨rfl, rfl, rfl, rfl, rfl, rfl⟩, fun i s t ht => ?row, fun s t ht => ?illegal⟩
  case row =>
    obtain ⟨e, hmem, -, herr⟩ := exec_next_err ht
    have hrow : errField t.status ∈ (errCodes i).map errCode := herr ▸ List.mem_map_of_mem hmem
    cases i <;> exact hrow
  case illegal =>
    obtain ⟨e, hiff, herr⟩ := completion_next_err ht
    rw [herr, ← hiff]
    exact ⟨errCode_le e, errCode_eq_iff e .illegal⟩

end Sys2Proof.Machine
end

section
/-! PROOFS. The errors of a loaded text: ENCODING of EMBED and SER_BYTE, before EMBED reads any pixel (R201), and EMBED's
CAPACITY, after the counts are written (R204). -/

namespace Sys2Proof.Machine

open Sys2Proof.Claims

/-! ## Code points of the payload -/

/-- The code points of a loaded payload are the words of text memory below TEXT_LEN (R102). -/
theorem mem_payload_iff {s : State} (hload : TextLoaded s) (w : Word) :
    w ∈ payload s ↔ ∃ j, j < s.textLen.toNat ∧ Memory.find s.txt j = some w := by
  simp only [payload, List.mem_map, List.mem_range]
  refine exists_congr fun j => and_congr_right fun hj => ?_
  obtain ⟨v, hv⟩ := hload j hj
  rw [txtRead_eq hv, hv, Option.some.injEq]

theorem encodeText_payload_eq_none_iff {s : State} (hload : TextLoaded s) :
    encodeText (payload s) = none ↔ ∃ j w, j < s.textLen.toNat ∧ Memory.find s.txt j = some w ∧ 256 ≤ w.toNat := by
  rw [encodeText_eq_none_iff]
  constructor
  · rintro ⟨w, hw, hbig⟩
    obtain ⟨j, hj, hf⟩ := (mem_payload_iff hload w).1 hw
    exact ⟨j, w, hj, hf, hbig⟩
  · rintro ⟨j, w, hj, hf, hbig⟩
    exact ⟨w, (mem_payload_iff hload w).2 ⟨j, hj, hf⟩, hbig⟩

theorem exists_encodeText_payload {s : State} (hload : TextLoaded s) (hfits : TextFits s) :
    ∃ S, encodeText (payload s) = some S := by
  rw [← Option.ne_none_iff_exists', Ne, encodeText_payload_eq_none_iff hload]
  rintro ⟨j, w, hj, hf, hbig⟩
  exact Nat.not_lt.mpr hbig (hfits j w hj hf)

/-! ## EMBED, an equation per error -/

theorem configError_embed_eq_false {s : State} (himg : ImageConfigured s) (htext : TextConfigured s) :
    configError .embed s = false := by
  obtain ⟨hC, hbytes⟩ := himg
  rw [← not_configBad_iff]
  rintro (⟨-, h3, h4⟩ | ⟨-, hlt⟩ | ⟨-, hlt⟩ | ⟨hext, -⟩)
  · exact hC.elim h3 h4
  · exact Nat.not_lt.mpr hbytes hlt
  · exact Nat.not_lt.mpr htext hlt
  · cases hext

theorem execEmbed_of_large {s : State} (hc : configError .embed s = false) (ht : textWritten s = true)
    (henc : encodeText (payload s) = none) : execEmbed s = .next (complete .encoding s) := by
  simpa [hc, ht, henc] using execEmbed_cases s

theorem execEmbed_of_no_fit {s : State} {S : List Bool} (hc : configError .embed s = false)
    (ht : textWritten s = true) (henc : encodeText (payload s) = some S) (hi : imageWritten s = true)
    (hfits : payloadFits s = false) :
    execEmbed s = .next (complete .capacity (setCounts (procPixels s) (textCount s) s)) := by
  simpa [hc, ht, henc, hi, hfits] using execEmbed_cases s

/-- EMBED raises ENCODING only past its read of the text (R206), for a payload that does not encode. -/
theorem encodeText_of_execEmbed_encoding {s t : State} (h : execEmbed s = .next t)
    (herr : errField t.status = errCode .encoding) : textWritten s = true ∧ encodeText (payload s) = none := by
  rcases execEmbed_cases s with ⟨-, hexec⟩ | ⟨-, -, hfault⟩ | ⟨-, ht, henc, -⟩ |
    ⟨S, -, -, -, ⟨-, hfault⟩ | ⟨-, -, hexec⟩ | ⟨-, -, hexec⟩⟩
  · cases err_eq_of_next_complete h herr hexec
  · cases hfault.symm.trans h
  · exact ⟨ht, henc⟩
  · cases hfault.symm.trans h
  · cases err_eq_of_next_complete h herr hexec
  · cases err_eq_of_next_complete h herr hexec

/-! ## SER_BYTE -/

theorem execSerByte_encoding_iff {s t : State} (h : execSerByte s = .next t) :
    errField t.status = errCode .encoding ↔ configError .serByte s = false ∧ indexOperand s < textCount s ∧
      ∃ w, Memory.find s.txt (indexOperand s) = some w ∧ 256 ≤ w.toNat := by
  constructor
  · intro herr
    rcases execSerByte_cases s with ⟨-, hexec⟩ | ⟨-, -, hexec⟩ | ⟨-, -, -, hfault⟩ | ⟨hc, hj, w, hf, hbig, -⟩ |
      ⟨-, -, w, -, -, hexec⟩ | ⟨-, -, b, -, hexec⟩
    · cases err_eq_of_next_complete h herr hexec
    · cases err_eq_of_next_complete h herr hexec
    · cases hfault.symm.trans h
    · exact ⟨hc, hj, w, hf, hbig⟩
    · cases err_eq_of_next_complete h herr hexec
    · cases err_eq_of_next_complete h herr hexec
  · rintro ⟨hc, hj, w, hf, hbig⟩
    exact errField_of_next_complete (execSerByte_of_large hc hj hf hbig) h

/-! ## The statements -/

/-- Settles O32: EMBED encodes the whole payload before its first pixel read, and SER_BYTE checks the word it reads. -/
theorem encodingErrorPrecedesThePixels : Obligations.EncodingErrorPrecedesThePixels := by
  unfold Obligations.EncodingErrorPrecedesThePixels
  refine ⟨fun s j w hgood hload hj hf hbig => ?embed, fun s t h herr => ?embedOnly, fun s t h => ?serByte⟩
  case embed =>
    have henc := (encodeText_payload_eq_none_iff hload).2 ⟨j, w, hj, hf, hbig⟩
    exact ⟨_, execEmbed_of_large ((not_configBad_iff _ s).1 hgood) ((textLoaded_iff s).1 hload) henc,
      completed_complete .encoding s rfl, keepsAllButStatus_complete .encoding s⟩
  case embedOnly =>
    obtain ⟨ht, henc⟩ := encodeText_of_execEmbed_encoding h herr
    exact (encodeText_payload_eq_none_iff ((textLoaded_iff s).2 ht)).1 henc
  case serByte =>
    rw [not_configBad_iff]
    exact execSerByte_encoding_iff h

/-- Settles O31: every check but the last passes, and CAPACITY is raised in the state that holds the counts. -/
theorem capacityErrorReportsTheCounts : Obligations.CapacityErrorReportsTheCounts := by
  unfold Obligations.CapacityErrorReportsTheCounts
  intro s himg htext hload hfits himage hlt
  obtain ⟨S, hS⟩ := exists_encodeText_payload hload hfits
  obtain ⟨hproc, hcap, hreq⟩ := toNat_counts htext
  rw [pixelsProcessed_eq] at hlt ⊢
  have hnofit : payloadFits s = false := decide_eq_false (Nat.not_le.mpr hlt)
  exact ⟨_, execEmbed_of_no_fit (configError_embed_eq_false himg htext) ((textLoaded_iff s).1 hload) hS
      ((imageLoaded_iff s).1 himage) hnofit,
    completed_complete .capacity s rfl, hproc, hcap, hreq, fun _ => rfl, fun _ => rfl, by simp [KeepsInputs],
    rfl, rfl, rfl, rfl⟩

end Sys2Proof.Machine
end

section
/-! PROOFS. What a reset does to the registers, to an accepted command and to both memories (R230, R231). -/

namespace Sys2Proof.Machine

open Sys2Proof.Claims

/-! ## Registers -/

@[simp] theorem readReg_powerOn (p : Params) (r : Reg) : readReg r (State.powerOn p) = 0 := by
  cases r <;> rfl

/-- A later reset leaves in the registers what power-on of the same build does: what it keeps is no register. -/
theorem readReg_platformReset_eq_powerOn (s : State) (r : Reg) :
    readReg r (platformReset s) = readReg r (State.powerOn s.params) := by
  cases r <;> rfl

@[simp] theorem readReg_platformReset (s : State) (r : Reg) : readReg r (platformReset s) = 0 :=
  (readReg_platformReset_eq_powerOn s r).trans (readReg_powerOn s.params r)

/-! ## Memory -/

@[simp] theorem find_powerOn_pix (p : Params) (a : Nat) : Memory.find (State.powerOn p).pix a = none := rfl

@[simp] theorem find_powerOn_txt (p : Params) (j : Nat) : Memory.find (State.powerOn p).txt j = none := rfl

theorem keepsPix_platformReset {s : State} (h : isBusy s = false) : KeepsPix s (platformReset s) := fun a => by
  rw [platformReset_pix, h, if_neg Bool.false_ne_true]

theorem keepsTxt_platformReset {s : State} (h : isBusy s = false) : KeepsTxt s (platformReset s) := fun j => by
  rw [platformReset_txt, h, if_neg Bool.false_ne_true]

theorem find_platformReset_pix_of_busy {s : State} (h : isBusy s = true) (a : Nat) :
    Memory.find (platformReset s).pix a = if a < imageBytes s then none else Memory.find s.pix a := by
  rw [platformReset_pix, if_pos h, Memory.find_forgetBelow]

theorem find_platformReset_txt_of_busy {s : State} (h : isBusy s = true) (j : Nat) :
    Memory.find (platformReset s).txt j = if j < textSize s then none else Memory.find s.txt j := by
  rw [platformReset_txt, if_pos h, Memory.find_forgetBelow]

/-! ## The statements -/

/-- Settles O10: an idle reset keeps both memories, a busy one forgets the image region and the text space. -/
theorem memoryAfterReset : Obligations.MemoryAfterReset := by
  unfold Obligations.MemoryAfterReset
  refine ⟨fun p a => ?powerOn, fun s hidle => ?idle, fun s a hbusy => ?busy⟩
  case powerOn => exact ⟨find_powerOn_pix p a, find_powerOn_txt p a⟩
  case idle => exact ⟨keepsPix_platformReset hidle, keepsTxt_platformReset hidle⟩
  case busy => exact ⟨find_platformReset_pix_of_busy hbusy a, find_platformReset_txt_of_busy hbusy a⟩

/-- Settles O9: a reset clears every register, with them BUSY, so the engine is left with nothing to complete. -/
theorem resetClearsEveryRegister : Obligations.ResetClearsEveryRegister := by
  unfold Obligations.ResetClearsEveryRegister
  refine ⟨fun p r => ?powerOn, fun s r => ?later⟩
  case powerOn => exact ⟨readReg_powerOn p r, rfl⟩
  case later =>
    exact ⟨readReg_platformReset s r, platformReset_pend s, engineMove_of_idle (isBusy_platformReset s)⟩

end Sys2Proof.Machine
end

section
/-! PROOFS. What a completed command has written, command by command, and the frame statements that follow from it (R20,
R63, R65, R205, R207). -/

namespace Sys2Proof.Machine

open Sys2Proof.Claims

/-! ## The effects of a completion -/

/-- The state a completed command leaves, one constructor per way a command writes: an error that writes STATUS alone;
EMBED's CAPACITY, after the counts (R204); EMBED's success (R170); EXTRACT's delivery (R172, R173); CAPACITY's counts
(R151); and RESULT alone. -/
inductive CommandEffect (s : State) : Instr → State → Prop
  | error {i : Instr} {e : ErrCode} (he : e ≠ .none) : CommandEffect s i (complete e s)
  | counted : CommandEffect s .embed (complete .capacity (setCounts (procPixels s) (textCount s) s))
  | embedded {S : List Bool} (hc : configError .embed s = false) (hS : encodeText (payload s) = some S)
      (hi : imageWritten s = true) (hfits : payloadFits s = true) :
      CommandEffect s .embed
        (complete .none { setCounts (procPixels s) (textCount s) s with pix := embedInto s.pix (slots s) S })
  | delivered {D : List Bool} {pos scanned : Nat} {found : Bool} (hc : configError .extract s = false)
      (hlen : D.length ≤ scanned) (hscan : scanned ≤ 3 * procPixels s) (hpos : pos = 0 ∨ pos + 40 = scanned) :
      CommandEffect s .extract (complete .none (deliver D pos scanned found s))
  | measured (v : Word) :
      CommandEffect s .capacity (complete .none (setResult v (setCounts (procPixels s) (textCount s) s)))
  | result {i : Instr} (hi : i ∉ [Instr.embed, .extract, .capacity]) (v : Word) :
      CommandEffect s i (complete .none (setResult v s))

/-- The effect of a command whose outcome is known. -/
theorem CommandEffect.of_next {i : Instr} {s t u : State} {r : Result} (h : r = .next t) (hr : r = .next u)
    (heff : CommandEffect s i u) : CommandEffect s i t := by
  obtain rfl := Host.Outcome.next.inj (hr.symm.trans h)
  exact heff

theorem execEmbed_effect {s t : State} (h : execEmbed s = .next t) : CommandEffect s .embed t := by
  rcases execEmbed_cases s with ⟨-, hexec⟩ | ⟨-, -, hfault⟩ | ⟨-, -, -, hexec⟩ |
    ⟨S, hc, -, hS, ⟨-, hfault⟩ | ⟨-, -, hexec⟩ | ⟨hi, hfits, hexec⟩⟩
  · exact .of_next h hexec (.error nofun)
  · cases hfault.symm.trans h
  · exact .of_next h hexec (.error nofun)
  · cases hfault.symm.trans h
  · exact .of_next h hexec .counted
  · exact .of_next h hexec (.embedded hc hS hi hfits)

theorem execExtract_effect {s t : State} (h : execExtract s = .next t) : CommandEffect s .extract t := by
  have hlen := length_recovered s
  rcases execExtract_cases s with ⟨-, hexec⟩ | ⟨-, -, hfault⟩ | ⟨hc, -, p, hp, hexec⟩ | ⟨hc, -, -, hexec⟩
  · exact .of_next h hexec (.error nofun)
  · cases hfault.symm.trans h
  · have hle := firstMatch_le hp
    exact .of_next h hexec (.delivered hc (by rw [List.length_take]; omega) (by omega) (.inr rfl))
  · exact .of_next h hexec (.delivered hc (Nat.le_refl _) hlen.le (.inl rfl))

theorem execCapacity_effect {s t : State} (h : execCapacity s = .next t) : CommandEffect s .capacity t := by
  rcases execCapacity_cases s with ⟨-, hexec⟩ | ⟨-, -, hfault⟩ | ⟨-, -, hexec⟩
  · exact .of_next h hexec (.error nofun)
  · cases hfault.symm.trans h
  · exact .of_next h hexec (.measured _)

theorem execSerByte_effect {s t : State} (h : execSerByte s = .next t) : CommandEffect s .serByte t := by
  rcases execSerByte_cases s with ⟨-, hexec⟩ | ⟨-, -, hexec⟩ | ⟨-, -, -, hfault⟩ | ⟨-, -, w, -, -, hexec⟩ |
    ⟨-, -, w, -, -, hexec⟩ | ⟨-, -, b, -, hexec⟩
  · exact .of_next h hexec (.error nofun)
  · exact .of_next h hexec (.error nofun)
  · cases hfault.symm.trans h
  · exact .of_next h hexec (.error nofun)
  · exact .of_next h hexec (.result (by decide) _)
  · exact .of_next h hexec (.result (by decide) _)

theorem execPixSelect_effect {s t : State} (h : execPixSelect s = .next t) : CommandEffect s .pixSelect t := by
  rcases execPixSelect_cases s with ⟨-, hexec⟩ | ⟨-, hexec⟩ | ⟨-, hexec⟩
  · exact .of_next h hexec (.error nofun)
  · exact .of_next h hexec (.result (by decide) _)
  · exact .of_next h hexec (.result (by decide) _)

/-- A command that answers a next state has one of the effects. -/
theorem exec_effect {i : Instr} {s t : State} (h : exec i s = .next t) : CommandEffect s i t := by
  cases i with
  | embed => exact execEmbed_effect h
  | extract => exact execExtract_effect h
  | capacity => exact execCapacity_effect h
  | serByte => exact execSerByte_effect h
  | chanEmbed => exact .of_next h (execChanEmbed_eq s) (.result (by decide) _)
  | chanExtract => exact .of_next h (execChanExtract_eq s) (.result (by decide) _)
  | pixSelect => exact execPixSelect_effect h
  | sentMatch => exact .of_next h (execSentMatch_eq s) (.result (by decide) _)

/-- A completion has an effect of the decoded command, or raises ILLEGAL. -/
theorem completion_effect {s t : State} (h : completion s = .next t) :
    (∃ i, decode s.pend = .ok i ∧ CommandEffect s i t) ∨ t = complete .illegal s := by
  rcases completion_cases s with ⟨i, hi, hexec⟩ | ⟨e, -, hexec⟩
  · exact .inl ⟨i, hi, exec_effect (hexec.symm.trans h)⟩
  · exact .inr (Host.Outcome.next.inj (h.symm.trans hexec))

/-! ## Frames of an effect -/

theorem CommandEffect.keepsInputs {i : Instr} {s t : State} (h : CommandEffect s i t) : KeepsInputs s t := by
  cases h <;> simp [KeepsInputs]

theorem completion_keepsInputs {s t : State} (h : completion s = .next t) : KeepsInputs s t := by
  rcases completion_effect h with ⟨i, -, heff⟩ | rfl
  · exact heff.keepsInputs
  · simp [KeepsInputs]

/-- A completed command has BUSY = 0, DONE = 1 and a code of R200. -/
theorem CommandEffect.status {i : Instr} {s t : State} (h : CommandEffect s i t) :
    busyBit t.status = false ∧ doneBit t.status = true ∧ ∃ e, errField t.status = errCode e := by
  cases h <;> simp [errCode_eq_iff]

theorem completion_status {s t : State} (h : completion s = .next t) :
    busyBit t.status = false ∧ doneBit t.status = true ∧ ∃ e, errField t.status = errCode e := by
  rcases completion_effect h with ⟨i, -, heff⟩ | rfl
  · exact heff.status
  · simp [errCode_eq_iff]

/-- Only EXTRACT writes SFOUND and TRUNC (R26, R27). -/
theorem CommandEffect.flags {i : Instr} {s t : State} (h : CommandEffect s i t) (hi : i ≠ .extract) :
    sfoundBit t.status = sfoundBit s.status ∧ truncBit t.status = truncBit s.status := by
  cases h with
  | delivered => exact absurd rfl hi
  | _ => simp

/-- Only EMBED writes pixel memory (R63). -/
theorem CommandEffect.pix {i : Instr} {s t : State} (h : CommandEffect s i t) (hi : i ≠ .embed) : t.pix = s.pix := by
  cases h with
  | embedded => exact absurd rfl hi
  | _ => rfl

/-- Only EXTRACT writes TEXT_LEN, text memory and the scan registers (R33, R40, R41, R65). -/
theorem CommandEffect.textAndScan {i : Instr} {s t : State} (h : CommandEffect s i t) (hi : i ≠ .extract) :
    t.textLen = s.textLen ∧ KeepsTxt s t ∧ KeepsScan s t := by
  cases h with
  | delivered => exact absurd rfl hi
  | _ => exact ⟨rfl, fun _ => rfl, rfl, rfl⟩

/-- Only EMBED and CAPACITY write the counts (R37 to R39). -/
theorem CommandEffect.counts {i : Instr} {s t : State} (h : CommandEffect s i t) (hemb : i ≠ .embed)
    (hcap : i ≠ .capacity) : KeepsCounts s t := by
  cases h with
  | counted => exact absurd rfl hemb
  | embedded => exact absurd rfl hemb
  | measured => exact absurd rfl hcap
  | _ => exact ⟨rfl, rfl, rfl⟩

/-- EMBED and EXTRACT leave RESULT (R36). -/
theorem CommandEffect.keepsResult {i : Instr} {s t : State} (h : CommandEffect s i t) (hi : i = .embed ∨ i = .extract) :
    t.result = s.result := by
  cases h with
  | measured => simp at hi
  | result hmem => rcases hi with rfl | rfl <;> simp at hmem
  | _ => rfl

/-- A decoded byte, as a sum, fits in 8 bits (R105). -/
theorem byteSum_lt {D : List Bool} {j : Nat} (hj : j < D.length / 8) : byteSum D j < 256 := by
  have hb := List.getElem?_eq_getElem (l := decodeBits D) (by rwa [length_decodeBits])
  rw [← toNat_decodeBits hb]
  exact BitVec.isLt _

/-- The text EXTRACT delivers is bytes below TEXT_LEN (R65, R172). -/
theorem CommandEffect.text {s t : State} (h : CommandEffect s .extract t) (j : Nat) :
    Memory.find t.txt j = Memory.find s.txt j ∨
      (j < t.textLen.toNat ∧ ∃ w, Memory.find t.txt j = some w ∧ w.toNat < 256) := by
  cases h with
  | error => exact .inl rfl
  | result => exact .inl rfl
  | @delivered D pos scanned found hc hlen hscan =>
    have hle := procPixels_le s
    rw [complete_txt, complete_textLen, deliver_textLen,
      toNat_ofNat_of_le_slots ((Nat.div_le_self _ 8).trans (hlen.trans hscan))]
    by_cases hj : j < D.length / 8
    · obtain ⟨w, hw, hbyte⟩ := Option.map_eq_some_iff.1
        (find_deliver_txt_of_lt (pos := pos) (scanned := scanned) (found := found) (s := s) hj)
      exact .inr ⟨hj, w, hw, hbyte ▸ byteSum_lt hj⟩
    · exact .inl (find_deliver_txt_of_ge (Nat.not_lt.mp hj))

/-- An effect that ends with an error has written STATUS alone, or is EMBED's CAPACITY with the counts. -/
theorem CommandEffect.of_err {i : Instr} {s t : State} (h : CommandEffect s i t)
    (herr : errField t.status ≠ errCode .none) : (∃ e, t = complete e s) ∨
      (i = .embed ∧ t = complete .capacity (setCounts (procPixels s) (textCount s) s)) := by
  cases h with
  | error => exact .inl ⟨_, rfl⟩
  | counted => exact .inr ⟨rfl, rfl⟩
  | embedded | delivered | measured | result => exact absurd (by simp) herr

/-! ## Pixel bytes under EMBED's write loop -/

/-- A store to a written location leaves the set of written locations as it was. -/
theorem Memory.isSome_find_store {n : Nat} {m : List (Nat × BitVec n)} {a : Nat} (h : (Memory.find m a).isSome = true)
    (v : BitVec n) (c : Nat) : (Memory.find (Memory.store m a v) c).isSome = (Memory.find m c).isSome := by
  rw [Memory.find_store]
  split
  · next hac => rw [← hac, h, Option.isSome_some]
  · rfl

theorem isSome_find_embedInto {m : List Host.Cell} {sl : List Nat} (hsl : ∀ a ∈ sl, (Memory.find m a).isSome = true)
    (S : List Bool) (c : Nat) : (Memory.find (embedInto m sl S) c).isSome = (Memory.find m c).isSome := by
  induction sl generalizing m S with
  | nil => cases S <;> rfl
  | cons a sl ih =>
    cases S with
    | nil => rfl
    | cons b S =>
      obtain ⟨ha, hsl⟩ := List.forall_mem_cons.1 hsl
      rw [embedInto, ih fun d hd => (Memory.isSome_find_store ha _ d).trans (hsl d hd), Memory.isSome_find_store ha]

/-- The loop changes bit 1 of a byte and no other (R120), wherever its slots are. -/
theorem getLsbD_pixRead_embedInto (m : List Host.Cell) (sl : List Nat) (S : List Bool) (c : Nat) {i : Nat} (hi : i ≠ 1) :
    (pixRead (embedInto m sl S) c).getLsbD i = (pixRead m c).getLsbD i := by
  induction sl generalizing m S with
  | nil => cases S <;> rfl
  | cons a sl ih =>
    cases S with
    | nil => rfl
    | cons b S =>
      rw [embedInto, ih]
      by_cases hac : a = c
      · rw [hac, pixRead_store_same, getLsbD_embedBit, if_neg hi]
      · rw [pixRead_congr (Memory.find_store_ne m _ hac)]

/-- No command changes which pixel bytes are written: EMBED's slots all were (R66). -/
theorem CommandEffect.isSome_find_pix {i : Instr} {s t : State} (h : CommandEffect s i t) (a : Nat) :
    (Memory.find t.pix a).isSome = (Memory.find s.pix a).isSome := by
  cases h with
  | @embedded S hc hS hi hfits =>
    have hC := channels_of_configError rfl hc
    have hslots : ∀ c ∈ slots s, (Memory.find s.pix c).isSome = true := fun c hmem =>
      Option.isSome_iff_exists.2 ((imageWritten_iff s).1 hi c (slot_lt (by omega) hmem))
    exact isSome_find_embedInto hslots S a
  | error | counted | delivered | measured | result => rfl

theorem CommandEffect.getLsbD_pixRead {i : Instr} {s t : State} (h : CommandEffect s i t) (a : Nat) {b : Nat}
    (hb : b ≠ 1) : (pixRead t.pix a).getLsbD b = (pixRead s.pix a).getLsbD b := by
  cases h with
  | @embedded S => exact getLsbD_pixRead_embedInto s.pix (slots s) S a hb
  | error | counted | delivered | measured | result => rfl

/-! ## The statements -/

/-- Settles O6: every effect of a command writes BUSY, DONE and ERR, and only EXTRACT's writes the two flags. -/
theorem completionWritesStatus : Obligations.CompletionWritesStatus := by
  unfold Obligations.CompletionWritesStatus
  refine ⟨fun s hb => engineMove_of_busy hb, fun s i hi => by rw [completion, hi], fun s t h => ?_⟩
  have hillegal : legalWord s.pend = false → errField t.status = errCode .illegal := fun hl =>
    errField_of_next_complete (completion_of_illegal hl) h
  obtain ⟨hbusy, hdone, herr⟩ := completion_status h
  refine ⟨hbusy, hdone, herr, hillegal, fun hne => ?_⟩
  rcases completion_effect h with ⟨i, hi, heff⟩ | rfl
  · exact heff.flags fun hext => hne (hext ▸ (decode_eq_ok_iff _ i).1 hi)
  · simp

/-- Settles O42: an error has written STATUS alone, or it is EMBED's CAPACITY, which has written the counts as well. -/
theorem errorsArePrecise : Obligations.ErrorsArePrecise := by
  unfold Obligations.ErrorsArePrecise
  intro s t h herr
  have hkeeps : (∃ e, t = complete e s) ∨ (s.pend = encode .embed ∧
      t = complete .capacity (setCounts (procPixels s) (textCount s) s)) := by
    rcases completion_effect h with ⟨i, hi, heff⟩ | rfl
    · rcases heff.of_err herr with hstatus | ⟨rfl, ht⟩
      · exact .inl hstatus
      · exact .inr ⟨(decode_eq_ok_iff _ _).1 hi, ht⟩
    · exact .inl ⟨.illegal, rfl⟩
  rcases hkeeps with ⟨e, rfl⟩ | ⟨hpend, rfl⟩
  · exact ⟨by simp [KeepsInputs], rfl, rfl, fun _ => rfl, fun _ => rfl, ⟨rfl, rfl⟩, .inl ⟨rfl, rfl, rfl⟩⟩
  · exact ⟨by simp [KeepsInputs], rfl, rfl, fun _ => rfl, fun _ => rfl, ⟨rfl, rfl⟩, .inr ⟨hpend, by simp⟩⟩

/-- Settles O43: each register and memory is written by the effects of its own commands only. -/
theorem eachCommandWritesOnlyItsOwn : Obligations.EachCommandWritesOnlyItsOwn := by
  unfold Obligations.EachCommandWritesOnlyItsOwn
  intro i s t h
  have heff := exec_effect h
  refine ⟨heff.keepsInputs, fun hi a => by rw [heff.pix hi], heff.textAndScan, fun hi => ?_, heff.counts,
    heff.keepsResult⟩
  subst hi
  exact heff.text

/-- Settles O35: only EMBED writes pixels, in written slots, and its loop changes bit 1 alone. -/
theorem onlyBitOneOfAPixelByteChanges : Obligations.OnlyBitOneOfAPixelByteChanges := by
  unfold Obligations.OnlyBitOneOfAPixelByteChanges
  intro i s t h a
  exact ⟨(exec_effect h).isSome_find_pix a, fun b hb => (exec_effect h).getLsbD_pixRead a hb⟩

end Sys2Proof.Machine
end

section
/-! PROOFS. The invariant: it holds after power-on, and every command, host move and reset keeps it. -/

namespace Sys2Proof.Machine

open Sys2Proof.Claims

/-! ## STATUS -/

/-- A completion from an accepted command's STATUS is legal: it has neither flag (R23, R205). -/
theorem statusLegal_statusCompleted (e : ErrCode) {w : BitVec 8}
    (hflags : sfoundBit w = true ∨ truncBit w = true → e = .none) : statusLegal (statusCompleted e w) :=
  .inr (.inr ⟨by simp, by simp, ⟨e, by simp⟩, by simpa [errCode_eq_iff] using hflags⟩)

/-! ## Completions -/

/-- The image region lies inside pixel memory once the CONFIG check has passed (R202, second line). -/
theorem imageBytes_le_of_configError {i : Instr} {s : State} (hi : checksImage i = true)
    (h : configError i s = false) : imageBytes s ≤ pixSize s := by
  simp only [configError, Bool.or_eq_false_iff, hi, Bool.true_and, decide_eq_false_iff_not] at h
  obtain ⟨⟨⟨-, himage⟩, -⟩, -⟩ := h
  exact Nat.not_lt.mp himage

/-- EXTRACT's output lies inside text memory once the CONFIG check has passed (R202, fourth line). -/
theorem output_le_of_configError {s : State} {L : Nat} (h : configError .extract s = false)
    (hL : L ≤ 3 * procPixels s) : L / 8 ≤ textSize s := by
  simp only [configError, Bool.or_eq_false_iff, checksOutput, Bool.true_and, decide_eq_false_iff_not] at h
  obtain ⟨-, hout⟩ := h
  have hP : procPixels s ≤ imgW s * imgH s := processedCount_le _ _ _ _
  calc L / 8 ≤ 3 * imgW s * imgH s / 8 := Nat.div_le_div_right (by rw [Nat.mul_assoc]; omega)
    _ ≤ textSize s := Nat.not_lt.mp hout

/-- The counts of an image keep CAP_BITS = 3 * PROC_COUNT: neither wraps (R38). -/
theorem toNat_capBits_setCounts (n : Nat) (s u : State) :
    (setCounts (procPixels s) n u).capBits.toNat = 3 * (setCounts (procPixels s) n u).procCount.toNat := by
  rw [setCounts_capBits, setCounts_procCount, toNat_ofNat_of_le_slots (x := 3 * procPixels s) (Nat.le_refl _),
    toNat_ofNat_of_le_slots (x := procPixels s) (s := s) (by omega)]

/-- Every effect of a command that was accepted keeps the invariant. -/
theorem CommandEffect.inv {i : Instr} {s t : State} (h : CommandEffect s i t) (hinv : Inv s)
    (hacc : s.status = statusAccepted) : Inv t := by
  have hstatus : ∀ e, statusLegal (statusCompleted e s.status) := fun e =>
    statusLegal_statusCompleted e (by simp [hacc])
  have hcounts := toNat_capBits_setCounts (textCount s) s s
  cases h with
  | error => exact { hinv with statusOk := hstatus _ }
  | counted => exact { hinv with statusOk := hstatus _, capacityOk := hcounts }
  | @embedded S hc hS hi hfits =>
    have hC := channels_of_configError rfl hc
    have hinside : ∀ c ∈ embedInto s.pix (slots s) S, c.1 < pixSize s := fun c hmem =>
      (mem_embedInto hmem).elim (hinv.pixInside c) fun hslot =>
        (slot_lt (by omega) hslot).trans_le (imageBytes_le_of_configError rfl hc)
    exact { hinv with
      statusOk := hstatus _, capacityOk := hcounts
      pixWf := embedInto_wf hinv.pixWf _ _, pixInside := hinside }
  | @delivered D pos scanned found hc hlen hscan hpos =>
    have hinside : ∀ c ∈ (deliver D pos scanned found s).txt, c.1 < textSize s := fun c hmem => by
      rw [deliver_txt, decodeBits_truncate8] at hmem
      rcases mem_writeText hmem with hold | ⟨-, hlt⟩
      · exact hinv.txtInside c hold
      · rw [length_decodeBits, Nat.zero_add] at hlt
        exact hlt.trans_le (output_le_of_configError hc (hlen.trans hscan))
    have hregisters : (BitVec.ofNat 32 pos).toNat = 0 ∨
        (BitVec.ofNat 32 pos).toNat + 40 = (BitVec.ofNat 32 scanned).toNat := by
      rcases hpos with rfl | hpos
      · exact .inl rfl
      · rw [toNat_ofNat_of_le_slots hscan, toNat_ofNat_of_le_slots (x := pos) (s := s) (by omega)]
        exact .inr hpos
    exact { hinv with
      statusOk := statusLegal_statusCompleted _ fun _ => rfl
      txtWf := writeText_wf hinv.txtWf _ _, txtInside := hinside, scanOk := hregisters }
  | measured => exact { hinv with statusOk := hstatus _, capacityOk := hcounts }
  | result => exact { hinv with statusOk := hstatus _ }

theorem inv_completion {s t : State} (hinv : Inv s) (hb : isBusy s = true) (h : completion s = .next t) : Inv t := by
  have hacc := status_eq_of_busy hinv hb
  rcases completion_effect h with ⟨i, -, heff⟩ | rfl
  · exact heff.inv hinv hacc
  · exact { hinv with statusOk := statusLegal_statusCompleted _ (by simp [hacc]) }

theorem completion_params {s t : State} (h : completion s = .next t) : t.params = s.params := by
  obtain ⟨-, -, -, -, -, -, hparams, -⟩ := completion_keepsInputs h
  exact hparams

/-! ## Host moves and resets -/

/-- A register write with BUSY = 0 stores no more than an input register or an acceptance. -/
theorem inv_writeReg {s : State} (hinv : Inv s) (r : Reg) (v : Word) :
    Inv (writeReg r v s) ∧ (writeReg r v s).params = s.params := by
  cases r with
  | cmd => exact ⟨{ hinv with statusOk := .inr (.inl rfl) }, rfl⟩
  | _ => exact ⟨{ hinv with }, rfl⟩

theorem inv_hostOp {op : HostOp} {s t : State} (hinv : Inv s) (h : hostOp op s = .next t) :
    Inv t ∧ t.params = s.params := by
  rcases hostOp_cases op s with ⟨r, hr⟩ | ⟨u, hu, hcases⟩
  · cases hr.symm.trans h
  obtain rfl := Host.Outcome.next.inj (hu.symm.trans h)
  rcases hcases with ⟨v, rfl⟩ | rfl | rfl | ⟨v, rfl⟩ | rfl | ⟨-, r, v, rfl⟩ | ⟨-, a, v, ha, rfl⟩ |
    ⟨-, j, v, hj, rfl⟩
  · exact ⟨{ hinv with }, rfl⟩
  · exact ⟨{ hinv with }, rfl⟩
  · exact ⟨{ hinv with }, rfl⟩
  · exact ⟨{ hinv with }, rfl⟩
  · exact ⟨hinv, rfl⟩
  · exact inv_writeReg hinv r v
  · have hinside : ∀ c ∈ Memory.store s.pix a v, c.1 < pixSize s := fun c hmem =>
      (Memory.mem_of_mem_store hmem).elim (fun hc => hc ▸ ha) (hinv.pixInside c)
    exact ⟨{ hinv with pixWf := Memory.store_wf hinv.pixWf a v, pixInside := hinside }, rfl⟩
  · have hinside : ∀ c ∈ Memory.store s.txt j v, c.1 < textSize s := fun c hmem =>
      (Memory.mem_of_mem_store hmem).elim (fun hc => hc ▸ hj) (hinv.txtInside c)
    exact ⟨{ hinv with txtWf := Memory.store_wf hinv.txtWf j v, txtInside := hinside }, rfl⟩

theorem inv_hostMove {s t : State} (hinv : Inv s) (h : hostMove s = .next t) : Inv t ∧ t.params = s.params := by
  cases hhost : s.host with
  | nil =>
    obtain rfl := Host.Outcome.next.inj ((hostMove_nil hhost).symm.trans h)
    exact ⟨hinv, rfl⟩
  | cons op rest =>
    have hrest : Inv { s with host := rest } := { hinv with }
    have hkeep := inv_hostOp hrest ((hostMove_cons hhost).symm.trans h)
    exact hkeep

/-- A memory with or without its lower part forgotten holds nothing new. -/
theorem wf_and_mem_forget {n : Nat} {m : List (Nat × BitVec n)} {size : Nat} (hwf : Memory.wf m)
    (hin : ∀ c ∈ m, c.1 < size) (b : Bool) (bound : Nat) :
    Memory.wf (if b then Memory.forgetBelow m bound else m) ∧
      ∀ c ∈ (if b then Memory.forgetBelow m bound else m), c.1 < size := by
  cases b with
  | false => exact ⟨hwf, hin⟩
  | true => exact ⟨Memory.forgetBelow_wf hwf bound, fun c hc => hin c (Memory.mem_of_mem_forgetBelow hc)⟩

theorem inv_platformReset {s : State} (hinv : Inv s) : Inv (platformReset s) := by
  obtain ⟨hpixWf, hpixIn⟩ := wf_and_mem_forget hinv.pixWf hinv.pixInside (isBusy s) (imageBytes s)
  obtain ⟨htxtWf, htxtIn⟩ := wf_and_mem_forget hinv.txtWf hinv.txtInside (isBusy s) (textSize s)
  exact {
    pixWf := hpixWf, txtWf := htxtWf, pixInside := hpixIn, txtInside := htxtIn
    statusOk := .inl rfl, capacityOk := rfl, scanOk := .inl rfl }

theorem inv_powerOn (p : Params) : Inv (State.powerOn p) where
  pixWf := (powerOn_memory_wf p).1
  txtWf := (powerOn_memory_wf p).2
  pixInside := nofun
  txtInside := nofun
  statusOk := .inl rfl
  capacityOk := rfl
  scanOk := .inl rfl

/-! ## The statements -/

/-- Settles O11: after power-on both memories are empty and every register is 0. -/
theorem invariantHoldsAfterPowerOn : Obligations.InvariantHoldsAfterPowerOn := by
  unfold Obligations.InvariantHoldsAfterPowerOn
  exact ⟨inv_powerOn, inv_powerOn Config.params⟩

/-- Settles O12: a step is a completion from an accepted command's STATUS, a host move, an idle engine turn or a reset. -/
theorem everyStepKeepsTheInvariant : Obligations.EveryStepKeepsTheInvariant := by
  unfold Obligations.EveryStepKeepsTheInvariant
  intro s t hinv h
  have hturns : ∀ ts, Inv { s with turns := ts } := fun ts => { hinv with }
  rcases step_cases s with ⟨-, hb, hstep⟩ | ⟨-, -, hstep⟩ | ⟨ts, -, hstep⟩ | ⟨ts, -, hb, hstep⟩ |
    ⟨ts, -, -, hstep⟩ | ⟨ts, -, hstep⟩
  · exact ⟨inv_completion hinv hb (hstep.symm.trans h), completion_params (hstep.symm.trans h)⟩
  · exact inv_hostMove hinv (hstep.symm.trans h)
  · have hkeep := inv_hostMove (hturns ts) (hstep.symm.trans h)
    exact hkeep
  · have hparams := completion_params (hstep.symm.trans h)
    exact ⟨inv_completion (hturns ts) hb (hstep.symm.trans h), hparams⟩
  · obtain rfl := Host.Outcome.next.inj (hstep.symm.trans h)
    exact ⟨hturns ts, rfl⟩
  · obtain rfl := Host.Outcome.next.inj (hstep.symm.trans h)
    exact ⟨inv_platformReset (hturns ts), rfl⟩

end Sys2Proof.Machine
end

section
/-! PROOFS. What the host's ports answer, when a host move is refused, and the steps by whose turn it is (R30 to R43, R67 to
R70, R94, R95, R213). -/

namespace Sys2Proof.Machine

open Sys2Proof.Claims

/-! ## Register reads -/

/-- A whole word read at a register's offset (R43, R67). -/
theorem hostRegRead_regOffset (r : Reg) (s : State) : hostRegRead (regOffset r) 4 s =
    .next (if isBusy s && unspecifiedWhileBusy r then returnFreeWord s else returnValue (readReg r s) s) := by
  rw [hostRegRead, if_pos (wholeAligned_regOffset r), regAt_regOffset]
  exact (apply_ite Host.Outcome.next _ _ _).symm

theorem hostRegRead_regOffset_of_idle {s : State} (hb : isBusy s = false) (r : Reg) :
    hostRegRead (regOffset r) 4 s = .next { s with lastRead := some (readReg r s) } := by
  rw [hostRegRead_regOffset, hb, Bool.false_and, if_neg Bool.false_ne_true]
  rfl

theorem hostRegWrite_regOffset_of_idle {s : State} (hb : isBusy s = false) (r : Reg) (v : Word) :
    hostRegWrite (regOffset r) 4 v s = .next (writeReg r v s) := by
  rw [hostRegWrite_regOffset, hb, if_neg Bool.false_ne_true]

/-- Storing the low `k` bits and reading them zero-extended is a mask (R30 to R32). -/
theorem setWidth_setWidth_eq_and {k : Nat} (hk : k ≤ 32) (v : Word) :
    (v.setWidth k).setWidth 32 = v &&& BitVec.ofNat 32 (2 ^ k - 1) := by
  have hpow : 2 ^ k ≤ 2 ^ 32 := Nat.pow_le_pow_right (by omega) hk
  have hpos : 0 < 2 ^ k := Nat.two_pow_pos k
  have hmod : v.toNat % 2 ^ k < 2 ^ k := Nat.mod_lt _ hpos
  refine BitVec.eq_of_toNat_eq ?_
  rw [BitVec.toNat_and, BitVec.toNat_setWidth, BitVec.toNat_setWidth, BitVec.toNat_ofNat,
    Nat.mod_eq_of_lt (show v.toNat % 2 ^ k < 2 ^ 32 by omega), Nat.mod_eq_of_lt (show 2 ^ k - 1 < 2 ^ 32 by omega),
    Nat.and_two_pow_sub_one_eq_mod]

/-! ## Host reads -/

/-- What a port read leaves: a value returned, stored or freshly drawn. -/
def HostRead (s t : State) : Prop := (∃ v, t = returnValue v s) ∨ t = returnFreeWord s ∨ t = returnFreeByte s

theorem HostRead.frame {s t : State} (h : HostRead s t) :
    t = { s with lastRead := t.lastRead, freeCount := t.freeCount } := by
  rcases h with ⟨v, rfl⟩ | rfl | rfl <;> rfl

theorem hostRead_of_hostRegRead {offset : BitVec 8} {bytes : Nat} {s t : State}
    (h : hostRegRead offset bytes s = .next t) : HostRead s t := by
  unfold hostRegRead at h
  split at h
  · split at h
    · exact .inl ⟨_, (Host.Outcome.next.inj h).symm⟩
    · split at h
      · exact .inr (.inl (Host.Outcome.next.inj h).symm)
      · exact .inl ⟨_, (Host.Outcome.next.inj h).symm⟩
  · cases h

/-! While BUSY = 1 each memory port refuses (R70). -/

theorem hostPixRead_of_busy {s : State} (hb : isBusy s = true) (a : Nat) :
    hostPixRead a s = .refused .memoryAccessWhileBusy := if_pos hb

theorem hostPixWrite_of_busy {s : State} (hb : isBusy s = true) (a : Nat) (v : Byte) :
    hostPixWrite a v s = .refused .memoryAccessWhileBusy := if_pos hb

theorem hostTxtRead_of_busy {s : State} (hb : isBusy s = true) (j : Nat) :
    hostTxtRead j s = .refused .memoryAccessWhileBusy := if_pos hb

theorem hostTxtWrite_of_busy {s : State} (hb : isBusy s = true) (j : Nat) (v : Word) :
    hostTxtWrite j v s = .refused .memoryAccessWhileBusy := if_pos hb

theorem hostRead_of_hostPixRead {a : Nat} {s t : State} (h : hostPixRead a s = .next t) : HostRead s t := by
  cases hb : isBusy s with
  | true => cases (hostPixRead_of_busy hb a).symm.trans h
  | false =>
    obtain rfl := Host.Outcome.next.inj ((hostPixRead_of_not_busy hb a).symm.trans h)
    split
    · cases Memory.find s.pix a with
      | none => exact .inr (.inr rfl)
      | some v => exact .inl ⟨_, rfl⟩
    · exact .inl ⟨_, rfl⟩

theorem hostRead_of_hostTxtRead {j : Nat} {s t : State} (h : hostTxtRead j s = .next t) : HostRead s t := by
  cases hb : isBusy s with
  | true => cases (hostTxtRead_of_busy hb j).symm.trans h
  | false =>
    obtain rfl := Host.Outcome.next.inj ((hostTxtRead_of_not_busy hb j).symm.trans h)
    split
    · cases Memory.find s.txt j with
      | none => exact .inr (.inl rfl)
      | some v => exact .inl ⟨_, rfl⟩
    · exact .inl ⟨_, rfl⟩

/-- A poll of WAIT ends the WAIT when DONE = 1 (R95). -/
theorem hostWait_of_done {s : State} (h : doneBit s.status = true) :
    hostWait s = .next (returnValue (readReg .status s) s) := if_pos h

theorem hostWait_of_not_done {s : State} (h : doneBit s.status = false) :
    hostWait s = .next { returnValue (readReg .status s) s with host := .wait :: s.host } := if_neg (by simp [h])

/-! ## Refused host moves (R213) -/

/-- A port that refuses under one condition, for one reason, and otherwise answers a next state. -/
theorem eq_refused_iff {x : Result} {c : Prop} {q : Refusal} (hrefused : c → x = .refused q)
    (hnext : ¬ c → ∃ u, x = .next u) (r : Refusal) : x = .refused r ↔ r = q ∧ c := by
  by_cases hc : c
  · rw [hrefused hc, Host.Outcome.refused.injEq, eq_comm]
    exact (and_iff_left hc).symm
  · obtain ⟨u, hu⟩ := hnext hc
    rw [hu]
    exact iff_of_false nofun fun h => hc h.2

theorem wholeAligned_iff (offset : BitVec 8) (bytes : Nat) :
    wholeAligned offset bytes = true ↔ bytes = 4 ∧ offset.toNat % 4 = 0 := by
  rw [wholeAligned, Bool.and_eq_true, decide_eq_true_iff, decide_eq_true_iff]

theorem hostRegRead_eq_refused_iff (offset : BitVec 8) (bytes : Nat) (s : State) (r : Refusal) :
    hostRegRead offset bytes s = .refused r ↔
      r = .partialRegisterAccess ∧ ¬ (bytes = 4 ∧ offset.toNat % 4 = 0) := by
  rw [← wholeAligned_iff]
  refine eq_refused_iff (fun h => if_neg h) (fun h => ?_) r
  show ∃ u, hostRegRead offset bytes s = .next u
  rw [hostRegRead, if_pos (not_not.1 h)]
  cases regAt offset with
  | none => exact ⟨_, rfl⟩
  | some q => exact ⟨_, (apply_ite Host.Outcome.next _ _ _).symm⟩

theorem hostRegWrite_eq_refused_iff (offset : BitVec 8) (bytes : Nat) (v : Word) (s : State) (r : Refusal) :
    hostRegWrite offset bytes v s = .refused r ↔
      r = .partialRegisterAccess ∧ ¬ (bytes = 4 ∧ offset.toNat % 4 = 0) := by
  rw [← wholeAligned_iff]
  refine eq_refused_iff (fun h => if_neg h) (fun h => ?_) r
  show ∃ u, hostRegWrite offset bytes v s = .next u
  rw [hostRegWrite, if_pos (not_not.1 h)]
  cases regAt offset with
  | none => exact ⟨_, rfl⟩
  | some q => exact ⟨_, (apply_ite Host.Outcome.next _ _ _).symm⟩

/-- A host move is refused for a partial register access, or for a memory access while BUSY = 1, and for nothing else. -/
theorem hostOp_eq_refused_iff (op : HostOp) (s : State) (r : Refusal) : hostOp op s = .refused r ↔
    ((r = .partialRegisterAccess ∧ ∃ offset bytes, RegisterPortOp op offset bytes ∧
        ¬ (bytes = 4 ∧ offset.toNat % 4 = 0)) ∨
     (r = .memoryAccessWhileBusy ∧ isBusy s = true ∧ MemoryPortOp op)) := by
  have hidle : ¬ isBusy s = true → isBusy s = false := Bool.eq_false_iff.2
  cases op with
  | regWrite offset bytes v =>
    refine (hostRegWrite_eq_refused_iff offset bytes v s r).trans ?_
    simp [RegisterPortOp, MemoryPortOp]
  | regRead offset bytes =>
    refine (hostRegRead_eq_refused_iff offset bytes s r).trans ?_
    simp [RegisterPortOp, MemoryPortOp]
  | pixWrite a v =>
    refine (eq_refused_iff (fun h => hostPixWrite_of_busy h a v)
      (fun h => ⟨_, hostPixWrite_of_not_busy (hidle h) a v⟩) r).trans ?_
    simp [RegisterPortOp, MemoryPortOp]
  | pixRead a =>
    refine (eq_refused_iff (fun h => hostPixRead_of_busy h a)
      (fun h => ⟨_, hostPixRead_of_not_busy (hidle h) a⟩) r).trans ?_
    simp [RegisterPortOp, MemoryPortOp]
  | txtWrite j v =>
    refine (eq_refused_iff (fun h => hostTxtWrite_of_busy h j v)
      (fun h => ⟨_, hostTxtWrite_of_not_busy (hidle h) j v⟩) r).trans ?_
    simp [RegisterPortOp, MemoryPortOp]
  | txtRead j =>
    refine (eq_refused_iff (fun h => hostTxtRead_of_busy h j)
      (fun h => ⟨_, hostTxtRead_of_not_busy (hidle h) j⟩) r).trans ?_
    simp [RegisterPortOp, MemoryPortOp]
  | wait =>
    have hnext : ∃ u, hostWait s = .next u := ⟨_, (apply_ite Host.Outcome.next _ _ _).symm⟩
    obtain ⟨u, hu⟩ := hnext
    refine iff_of_false (fun h => ?_) (by simp [RegisterPortOp, MemoryPortOp])
    cases hu.symm.trans h

theorem hostMove_eq_refused_iff (s : State) (r : Refusal) : hostMove s = .refused r ↔
    ∃ op rest, s.host = op :: rest ∧
      ((r = .partialRegisterAccess ∧ ∃ offset bytes, RegisterPortOp op offset bytes ∧
          ¬ (bytes = 4 ∧ offset.toNat % 4 = 0)) ∨
       (r = .memoryAccessWhileBusy ∧ busyBit s.status = true ∧ MemoryPortOp op)) := by
  cases hhost : s.host with
  | nil =>
    rw [hostMove_nil hhost]
    exact iff_of_false nofun nofun
  | cons op rest =>
    rw [hostMove_cons hhost, hostOp_eq_refused_iff]
    refine ⟨fun h => ⟨op, rest, rfl, h⟩, ?_⟩
    rintro ⟨op', rest', heq, h⟩
    obtain ⟨rfl, -⟩ := List.cons.inj heq
    exact h

/-! ## A step by whose turn it is -/

section
variable {s : State} {ts : List Turn}

theorem step_of_no_turn_busy (ht : s.turns = []) (hb : isBusy s = true) : step s = completion s := by
  rw [step, ht]
  exact (if_pos hb).trans (engineMove_of_busy hb)

theorem step_of_no_turn_idle (ht : s.turns = []) (hb : isBusy s = false) : step s = hostMove s := by
  rw [step, ht]
  exact if_neg (by simp [hb])

theorem step_of_host_turn (ht : s.turns = .host :: ts) : step s = hostMove { s with turns := ts } := by
  rw [step, ht]

theorem step_of_engine_turn (ht : s.turns = .engine :: ts) (hb : isBusy s = true) :
    step s = completion { s with turns := ts } := by
  rw [step, ht]
  exact engineMove_of_busy hb

theorem step_of_reset_turn (ht : s.turns = .reset :: ts) :
    step s = .next (platformReset { s with turns := ts }) := by
  rw [step, ht]

end

theorem completion_of_decode {s : State} {i : Instr} (h : decode s.pend = .ok i) : completion s = exec i s := by
  rw [completion, h]

/-- With no turn named, an accepted command runs at the very next step. -/
theorem step_accept_encode {s : State} (ht : s.turns = []) (i : Instr) :
    step (accept (encode i) s) = exec i (accept (encode i) s) := by
  rw [step_of_no_turn_busy (s := accept (encode i) s) ht (isBusy_accept (encode i) s),
    completion_of_decode (s := accept (encode i) s) (decode_encode i)]

/-- A step is refused exactly where the host moves and its move is. -/
theorem step_eq_refused_iff (s : State) (r : Refusal) :
    step s = .refused r ↔ HostMovesNext s ∧ hostMove s = .refused r := by
  have hturns : ∀ ts, hostMove { s with turns := ts } = .refused r ↔ hostMove s = .refused r := fun ts => by
    rw [hostMove_eq_refused_iff, hostMove_eq_refused_iff]
  have hother : ∀ {x : Result}, step s = x → x ≠ .refused r → ¬ HostMovesNext s →
      (step s = .refused r ↔ HostMovesNext s ∧ hostMove s = .refused r) := fun hstep hne hno =>
    iff_of_false (hstep ▸ hne) fun h => hno h.1
  rcases step_cases s with ⟨ht, hb, hstep⟩ | ⟨ht, hb, hstep⟩ | ⟨ts, ht, hstep⟩ | ⟨ts, ht, -, hstep⟩ |
    ⟨ts, ht, -, hstep⟩ | ⟨ts, ht, hstep⟩
  · refine hother hstep (completion_ne_refused _ r) ?_
    have hb' : busyBit s.status = true := hb
    simp [HostMovesNext, ht, hb']
  · rw [hstep]
    exact (and_iff_right (.inr ⟨ht, hb⟩)).symm
  · rw [hstep, hturns ts]
    exact (and_iff_right (.inl ⟨ts, ht⟩)).symm
  · exact hother hstep (completion_ne_refused _ r) (by simp [HostMovesNext, ht])
  · exact hother hstep nofun (by simp [HostMovesNext, ht])
  · exact hother hstep nofun (by simp [HostMovesNext, ht])

/-! ## The statements -/

/-- Settles O8: of what a host move can do, the writes all ask for BUSY = 0. -/
theorem hostCannotDisturbARunningCommand : Obligations.HostCannotDisturbARunningCommand := by
  unfold Obligations.HostCannotDisturbARunningCommand
  intro s t hbusy h
  have hb : isBusy s = true := hbusy
  cases hhost : s.host with
  | nil =>
    obtain rfl := Host.Outcome.next.inj ((hostMove_nil hhost).symm.trans h)
    exact ⟨rfl, Nat.le_refl _⟩
  | cons op rest =>
    have hmove := (hostMove_cons hhost).symm.trans h
    have hidle : ¬ isBusy { s with host := rest } = false := by
      rw [show isBusy { s with host := rest } = isBusy s from rfl, hb]
      exact nofun
    rcases hostOp_cases op { s with host := rest } with ⟨r, hr⟩ | ⟨u, hu, hcases⟩
    · cases hr.symm.trans hmove
    obtain rfl := Host.Outcome.next.inj (hu.symm.trans hmove)
    rcases hcases with ⟨v, rfl⟩ | rfl | rfl | ⟨v, rfl⟩ | rfl | ⟨hno, -⟩ | ⟨hno, -⟩ | ⟨hno, -⟩
    · exact ⟨rfl, Nat.le_refl _⟩
    · exact ⟨rfl, Nat.le_succ _⟩
    · exact ⟨rfl, Nat.le_succ _⟩
    · exact ⟨rfl, Nat.le_refl _⟩
    · exact ⟨rfl, Nat.le_refl _⟩
    · exact absurd hno hidle
    · exact absurd hno hidle
    · exact absurd hno hidle

/-- Settles O49: only a host move is refused, and `hostOp` refuses register and memory accesses for one reason each. -/
theorem refusalsAreTheTwoCases : Obligations.RefusalsAreTheTwoCases := by
  unfold Obligations.RefusalsAreTheTwoCases
  intro s r
  rw [step_eq_refused_iff, hostMove_eq_refused_iff]

/-- Settles O4: one equation of `step` per turn, and `withFetchWord` names the engine's turn of a busy state. -/
theorem stepRunsTheAcceptedCommand : Obligations.StepRunsTheAcceptedCommand := by
  unfold Obligations.StepRunsTheAcceptedCommand
  refine ⟨fun s i hb hi => ⟨fun ht => ?noTurn, fun ts ht => ?engineTurn⟩, fun s ht hb => step_of_no_turn_idle ht hb,
    fun s ts ht => step_of_host_turn ht, fun s ts ht => step_of_reset_turn ht, fun s w => ?fetched⟩
  case noTurn => rw [step_of_no_turn_busy ht hb, completion_of_decode hi]
  case engineTurn => rw [step_of_engine_turn ht hb, completion_of_decode (s := { s with turns := ts }) hi]
  case fetched =>
    have hword : BitVec.ofNat 32 (w.toNat % 2 ^ 32) = w := by
      rw [Nat.mod_eq_of_lt w.isLt, BitVec.ofNat_toNat, BitVec.setWidth_eq]
    have hbusy : isBusy (s.withFetchWord 32 w.toNat) = true :=
      isBusy_accept (BitVec.ofNat 32 (w.toNat % 2 ^ 32)) s
    rw [step_of_engine_turn (ts := s.turns) rfl hbusy, State.withFetchWord, hword, accept, statusAccepted_eq]

/-- Settles O7: a write at a register's offset is ignored while BUSY = 1, and a read depends on `unspecifiedWhileBusy`. -/
theorem registerAccessWhileBusy : Obligations.RegisterAccessWhileBusy := by
  unfold Obligations.RegisterAccessWhileBusy
  intro s hbusy
  have hb : isBusy s = true := hbusy
  refine ⟨fun r v => by rw [hostRegWrite_regOffset, if_pos hb], fun r hr => ?specified, fun r hr => ?unspecified⟩
  case specified =>
    have hspec : unspecifiedWhileBusy r = false := by revert hr; cases r <;> decide
    exact hostRegRead_regOffset_of_specified hspec s
  case unspecified =>
    have hunspec : unspecifiedWhileBusy r = true := by revert hr; cases r <;> decide
    rw [hostRegRead_regOffset, hb, hunspec]
    rfl

/-- Settles O46: with BUSY = 0 a write is `writeReg`, which keeps the implemented bits, and a read is `readReg`. -/
theorem inputRegistersStoreTheirBits : Obligations.InputRegistersStoreTheirBits := by
  unfold Obligations.InputRegistersStoreTheirBits
  intro s v hidle
  have hwrite := fun r => hostRegWrite_regOffset_of_idle (s := s) hidle r v
  exact ⟨hostRegRead_regOffset_of_idle hidle,
    ⟨_, hwrite .width, rfl, setWidth_setWidth_eq_and (k := 15) (by decide) v⟩,
    ⟨_, hwrite .height, rfl, setWidth_setWidth_eq_and (k := 15) (by decide) v⟩,
    ⟨_, hwrite .channels, rfl, setWidth_setWidth_eq_and (k := 3) (by decide) v⟩,
    hwrite .textLen, hwrite .opa, hwrite .opb⟩

/-- Settles O55: the fourteen offsets are those of `regOffset`. -/
theorem registersReadAtTheirOffsets : Obligations.RegistersReadAtTheirOffsets := by
  unfold Obligations.RegistersReadAtTheirOffsets
  intro s hidle
  have hread := hostRegRead_regOffset_of_idle (s := s) hidle
  exact ⟨hread .cmd, hread .status, hread .width, hread .height, hread .channels, hread .textLen, hread .opa, hread .opb,
    hread .result, hread .procCount, hread .capBits, hread .reqBits, hread .sentPos, hread .bitsScanned⟩

/-- Settles O52: each port read only returns a value, and a poll at most puts the WAIT back. -/
theorem hostReadsHaveNoSideEffect : Obligations.HostReadsHaveNoSideEffect := by
  unfold Obligations.HostReadsHaveNoSideEffect
  refine fun s t => ⟨fun offset bytes h => (hostRead_of_hostRegRead h).frame,
    fun a h => (hostRead_of_hostPixRead h).frame, fun j h => (hostRead_of_hostTxtRead h).frame, fun h => ?_⟩
  cases hd : doneBit s.status with
  | true =>
    obtain rfl := Host.Outcome.next.inj ((hostWait_of_done hd).symm.trans h)
    rfl
  | false =>
    obtain rfl := Host.Outcome.next.inj ((hostWait_of_not_done hd).symm.trans h)
    rfl

/-- Settles O53: `RUN` is a write of the command's word to CMD, which accepts it, and then the WAIT. -/
theorem runLineRunsTheCommand : Obligations.RunLineRunsTheCommand := by
  unfold Obligations.RunLineRunsTheCommand
  intro i s rest hidle ht hhost
  have hhost' : s.host = commandOp i :: .wait :: rest := hhost
  have hwrite := hostRegWrite_regOffset_of_idle (s := { s with host := .wait :: rest }) hidle .cmd (encode i)
  refine ⟨accept (encode i) { s with host := .wait :: rest }, ?_, by rw [accept, statusAccepted_eq],
    step_accept_encode (s := { s with host := .wait :: rest }) ht i⟩
  rw [step_of_no_turn_idle ht hidle, hostMove_cons hhost']
  exact hwrite

end Sys2Proof.Machine
end

section
/-! PROOFS. Where a completion faults, and what that makes of the fault set and the refusal mark of a run and of a WAIT
(R47, R66, R95, R206, R212, R241). -/

namespace Sys2Proof.Machine

open Sys2Proof.Claims

/-! ## The faults of each command -/

theorem execExtract_eq_fault_iff (s : State) (f : Fault) :
    execExtract s = .fault f ↔ configError .extract s = false ∧ imageWritten s = false := by
  constructor
  · intro h
    rcases execExtract_cases s with ⟨-, hexec⟩ | ⟨hc, hi, -⟩ | ⟨-, -, p, -, hexec⟩ | ⟨-, -, -, hexec⟩
    · cases hexec.symm.trans h
    · exact ⟨hc, hi⟩
    · cases hexec.symm.trans h
    · cases hexec.symm.trans h
  · rintro ⟨hc, hi⟩
    cases f
    simpa [hc, hi] using execExtract_cases s

theorem execCapacity_eq_fault_iff (s : State) (f : Fault) :
    execCapacity s = .fault f ↔ configError .capacity s = false ∧ imageWritten s = false := by
  constructor
  · intro h
    rcases execCapacity_cases s with ⟨-, hexec⟩ | ⟨hc, hi, -⟩ | ⟨-, -, hexec⟩
    · cases hexec.symm.trans h
    · exact ⟨hc, hi⟩
    · cases hexec.symm.trans h
  · rintro ⟨hc, hi⟩
    cases f
    exact execCapacity_of_unwritten hc hi

theorem execSerByte_eq_fault_iff (s : State) (f : Fault) : execSerByte s = .fault f ↔
    configError .serByte s = false ∧ indexOperand s < textCount s ∧ Memory.find s.txt (indexOperand s) = none := by
  constructor
  · intro h
    rcases execSerByte_cases s with ⟨-, hexec⟩ | ⟨-, -, hexec⟩ | ⟨hc, hj, hf, -⟩ | ⟨-, -, w, -, -, hexec⟩ |
      ⟨-, -, w, -, -, hexec⟩ | ⟨-, -, b, -, hexec⟩
    · cases hexec.symm.trans h
    · cases hexec.symm.trans h
    · exact ⟨hc, hj, hf⟩
    · cases hexec.symm.trans h
    · cases hexec.symm.trans h
    · cases hexec.symm.trans h
  · rintro ⟨hc, hj, hf⟩
    cases f
    exact execSerByte_of_unwritten hc hj hf

/-- EMBED reads the text first, and the image only for a payload that encodes (R206). -/
theorem execEmbed_eq_fault_iff (s : State) (f : Fault) : execEmbed s = .fault f ↔
    configError .embed s = false ∧
      (textWritten s = false ∨ (encodeText (payload s) ≠ none ∧ imageWritten s = false)) := by
  constructor
  · intro h
    rcases execEmbed_cases s with ⟨-, hexec⟩ | ⟨hc, ht, -⟩ | ⟨-, -, -, hexec⟩ |
      ⟨S, hc, -, hS, ⟨hi, -⟩ | ⟨-, -, hexec⟩ | ⟨-, -, hexec⟩⟩
    · cases hexec.symm.trans h
    · exact ⟨hc, .inl ht⟩
    · cases hexec.symm.trans h
    · exact ⟨hc, .inr ⟨by simp [hS], hi⟩⟩
    · cases hexec.symm.trans h
    · cases hexec.symm.trans h
  · rintro ⟨hc, hread⟩
    cases f
    cases ht : textWritten s with
    | false => simpa [hc, ht] using execEmbed_cases s
    | true =>
      obtain ⟨henc, hi⟩ := hread.resolve_left (by simp [ht])
      obtain ⟨S, hS⟩ := Option.ne_none_iff_exists'.1 henc
      simpa [hc, ht, hS, hi] using execEmbed_cases s

/-- A loaded payload encodes exactly when every code point fits in a byte (R102, R201). -/
theorem encodeText_payload_ne_none_iff {s : State} (hload : TextLoaded s) :
    encodeText (payload s) ≠ none ↔ TextFits s := by
  rw [Ne, encodeText_payload_eq_none_iff hload]
  push Not
  rfl

/-! ## The faults of a completion -/

theorem completion_encode {s : State} {i : Instr} (h : s.pend = encode i) : completion s = exec i s :=
  completion_of_decode (h ▸ decode_encode i)

/-- A completion faults at the read points of R66, in the order of R206, and nowhere else. -/
theorem completion_eq_fault_iff (s : State) (f : Fault) : completion s = .fault f ↔ AtReadPoint s := by
  have hembed : (configError .embed s = false ∧
      (textWritten s = false ∨ (encodeText (payload s) ≠ none ∧ imageWritten s = false))) ↔
      ¬ ConfigBad .embed s ∧ (¬ TextLoaded s ∨ (TextFits s ∧ ¬ ImageLoaded s)) := by
    rw [not_configBad_iff, imageLoaded_iff, Bool.not_eq_true]
    refine and_congr_right fun _ => ?_
    by_cases hload : TextLoaded s
    · rw [encodeText_payload_ne_none_iff hload, ← Bool.not_eq_true, ← textLoaded_iff]
    · exact iff_of_true (.inl (by rwa [← Bool.not_eq_true, ← textLoaded_iff])) (.inl hload)
  have himage : ∀ i, (configError i s = false ∧ imageWritten s = false) ↔
      ¬ ConfigBad i s ∧ ¬ ImageLoaded s := fun i => by
    rw [not_configBad_iff, imageLoaded_iff, Bool.not_eq_true]
  constructor
  · intro h
    rcases completion_cases s with ⟨i, hi, hexec⟩ | ⟨e, -, hexec⟩
    · have hpend := (decode_eq_ok_iff _ i).1 hi
      have hfault := hexec.symm.trans h
      cases i with
      | embed => exact .inl ⟨hpend, hembed.1 ((execEmbed_eq_fault_iff s f).1 hfault)⟩
      | extract => exact .inr (.inl ⟨hpend, (himage _).1 ((execExtract_eq_fault_iff s f).1 hfault)⟩)
      | capacity => exact .inr (.inr (.inl ⟨hpend, (himage _).1 ((execCapacity_eq_fault_iff s f).1 hfault)⟩))
      | serByte =>
        obtain ⟨hc, hj, hf⟩ := (execSerByte_eq_fault_iff s f).1 hfault
        exact .inr (.inr (.inr ⟨hpend, (not_configBad_iff _ s).2 hc, hj, hf⟩))
      | chanEmbed => cases (execChanEmbed_eq s).symm.trans hfault
      | chanExtract => cases (execChanExtract_eq s).symm.trans hfault
      | pixSelect =>
        rcases execPixSelect_cases s with ⟨-, hnext⟩ | ⟨-, hnext⟩ | ⟨-, hnext⟩
        · cases hnext.symm.trans hfault
        · cases hnext.symm.trans hfault
        · cases hnext.symm.trans hfault
      | sentMatch => cases (execSentMatch_eq s).symm.trans hfault
    · cases hexec.symm.trans h
  · rintro (⟨hpend, hread⟩ | ⟨hpend, hread⟩ | ⟨hpend, hread⟩ | ⟨hpend, hgood, hj, hf⟩)
    · exact (completion_encode hpend).trans ((execEmbed_eq_fault_iff s f).2 (hembed.2 hread))
    · exact (completion_encode hpend).trans ((execExtract_eq_fault_iff s f).2 ((himage _).2 hread))
    · exact (completion_encode hpend).trans ((execCapacity_eq_fault_iff s f).2 ((himage _).2 hread))
    · exact (completion_encode hpend).trans
        ((execSerByte_eq_fault_iff s f).2 ⟨(not_configBad_iff _ s).1 hgood, hj, hf⟩)

/-! ## The faults and refusals of a step -/

theorem hostOp_ne_fault (op : HostOp) (s : State) (f : Fault) : hostOp op s ≠ .fault f := by
  rcases hostOp_cases op s with ⟨r, hr⟩ | ⟨u, hu, -⟩
  · rw [hr]
    exact nofun
  · rw [hu]
    exact nofun

theorem hostMove_ne_fault (s : State) (f : Fault) : hostMove s ≠ .fault f := by
  cases hhost : s.host with
  | nil =>
    rw [hostMove_nil hhost]
    exact nofun
  | cons op rest =>
    rw [hostMove_cons hhost]
    exact hostOp_ne_fault op _ f

/-- A step faults exactly where the engine moves and its command is at a read point. -/
theorem step_eq_fault_iff (s : State) (f : Fault) : step s = .fault f ↔ EngineMovesNext s ∧ AtReadPoint s := by
  have hother : ∀ {x : Result}, step s = x → x ≠ .fault f → ¬ EngineMovesNext s →
      (step s = .fault f ↔ EngineMovesNext s ∧ AtReadPoint s) := fun hstep hne hno =>
    iff_of_false (hstep ▸ hne) fun h => hno h.1
  rcases step_cases s with ⟨ht, hb, hstep⟩ | ⟨ht, hb, hstep⟩ | ⟨ts, ht, hstep⟩ | ⟨ts, ht, hb, hstep⟩ |
    ⟨ts, ht, hb, hstep⟩ | ⟨ts, ht, hstep⟩
  · rw [hstep, completion_eq_fault_iff]
    exact (and_iff_right ⟨hb, .inl ht⟩).symm
  · refine hother hstep (hostMove_ne_fault _ f) fun h => ?_
    cases h.1.symm.trans hb
  · exact hother hstep (hostMove_ne_fault _ f) (by simp [EngineMovesNext, ht])
  · rw [hstep, completion_eq_fault_iff]
    exact (and_iff_right ⟨hb, .inr ⟨ts, ht⟩⟩).symm
  · refine hother hstep nofun fun h => ?_
    cases h.1.symm.trans hb
  · exact hother hstep nofun (by simp [EngineMovesNext, ht])

/-- A step is refused exactly where the host moves and its access has no meaning. -/
theorem exists_step_eq_refused_iff (s : State) :
    (∃ r, step s = .refused r) ↔ HostMovesNext s ∧ HostAccessWithoutMeaning s := by
  simp only [step_eq_refused_iff, exists_and_left, hostMove_eq_refused_iff]
  refine and_congr_right fun _ => ?_
  constructor
  · rintro ⟨r, op, rest, hhost, ⟨-, hpartial⟩ | ⟨-, hmemory⟩⟩
    · exact ⟨op, rest, hhost, .inl hpartial⟩
    · exact ⟨op, rest, hhost, .inr hmemory⟩
  · rintro ⟨op, rest, hhost, hpartial | hmemory⟩
    · exact ⟨_, op, rest, hhost, .inl ⟨rfl, hpartial⟩⟩
    · exact ⟨_, op, rest, hhost, .inr ⟨rfl, hmemory⟩⟩

/-! ## Polls of WAIT -/

/-- A completion ends in the model's fault or in a state with DONE = 1 and the host where it was. -/
theorem completion_ends (s : State) : completion s = .fault .uninit ∨
    ∃ u, completion s = .next u ∧ busyBit u.status = false ∧ doneBit u.status = true ∧ u.host = s.host ∧
      u.turns = s.turns := by
  cases h : completion s with
  | next u =>
    obtain ⟨hbusy, hdone, -⟩ := completion_status h
    obtain ⟨-, -, -, -, -, -, -, hhost, hturns, -⟩ := completion_keepsInputs h
    exact .inr ⟨u, rfl, hbusy, hdone, hhost, hturns⟩
  | fault f =>
    cases f
    exact .inl rfl
  | refused r => exact absurd h (completion_ne_refused s r)

/-- With the host in WAIT and no turn named, a state with DONE = 1 ends the WAIT by one poll. -/
theorem step_wait_of_done {u : State} {rest : List HostOp} (ht : u.turns = []) (hb : busyBit u.status = false)
    (hd : doneBit u.status = true) (hhost : u.host = .wait :: rest) :
    ∃ v, step u = .next v ∧ v.host = rest ∧ v.lastRead = some (readReg .status u) := by
  rw [step_of_no_turn_idle ht hb, hostMove_cons hhost]
  exact ⟨_, hostWait_of_done (s := { u with host := rest }) hd, rfl, rfl⟩

/-- With the host in WAIT and its turn named, a poll before DONE = 1 reads STATUS and leaves the host in WAIT. -/
theorem step_wait_of_not_done {s : State} {rest : List HostOp} {ts : List Turn} (ht : s.turns = .host :: ts)
    (hd : doneBit s.status = false) (hhost : s.host = .wait :: rest) :
    step s = .next { s with turns := ts, lastRead := some (readReg .status s) } := by
  have hpoll := hostWait_of_not_done (s := { s with turns := ts, host := rest }) hd
  rw [step_of_host_turn ht, hostMove_cons (s := { s with turns := ts }) hhost]
  refine hpoll.trans ?_
  rw [← hhost]
  rfl

/-! ## The statements -/

/-- Settles O50: each command's fault is its own read points, past its CONFIG check. -/
theorem faultsAreTheReadPoints : Obligations.FaultsAreTheReadPoints := by
  unfold Obligations.FaultsAreTheReadPoints
  exact completion_eq_fault_iff

/-- Settles O51: a run that goes on is marked by the stop of its next step, and a run that has stopped keeps its marks. -/
theorem faultSetAndRefusalMarkAreSetAtTheirPoints : Obligations.FaultSetAndRefusalMarkAreSetAtTheirPoints := by
  unfold Obligations.FaultSetAndRefusalMarkAreSetAtTheirPoints
  intro k s
  refine ⟨rfl, rfl, ?_⟩
  by_cases hrun : ∃ t, runsTo k s t
  · obtain ⟨t, ht⟩ := hrun
    have hat : ∀ P : State → Prop, (∃ u, runsTo k s u ∧ P u) ↔ P t := fun P =>
      ⟨fun ⟨u, hu, hP⟩ => runsTo_unique hu ht ▸ hP, fun hP => ⟨t, ht, hP⟩⟩
    rw [hat fun u => EngineMovesNext u ∧ AtReadPoint u, hat fun u => HostMovesNext u ∧ HostAccessWithoutMeaning u,
      mem_faultSet_succ_of_runsTo ht, refusalMark_succ_of_runsTo ht, step_eq_fault_iff, exists_step_eq_refused_iff,
      faultSet_of_runsTo ht, refusalMark_of_runsTo ht]
    simp
  · have hnone := not_exists.1 hrun
    obtain ⟨hfaults, hmark⟩ := marks_succ_of_stopped hnone
    rw [hfaults, hmark]
    exact ⟨⟨.inl, fun h => h.elim id fun ⟨t, ht, _⟩ => absurd ht (hnone t)⟩,
      ⟨.inl, fun h => h.elim id fun ⟨t, ht, _⟩ => absurd ht (hnone t)⟩⟩

/-- Settles O54: by induction on the polls; each leaves the command accepted, and the engine's move sets DONE. -/
theorem waitEndsWithTheCompletion : Obligations.WaitEndsWithTheCompletion := by
  unfold Obligations.WaitEndsWithTheCompletion
  intro k
  induction k with
  | zero =>
    intro s rest _ hb hhost ht
    rw [run_succ_last (k := 0) rfl, step_of_no_turn_busy ht hb]
    rcases completion_ends s with hfault | ⟨u, hu, hbusy, hdone, hhostu, htu⟩
    · exact .inl hfault
    · have hhostu := hhostu.trans hhost
      obtain ⟨v, hv, hrest, hread⟩ := step_wait_of_done (htu.trans ht) hbusy hdone hhostu
      exact .inr ⟨u, v, hu, hdone, hhostu, hv, hrest, hread⟩
  | succ k ih =>
    intro s rest hinv hb hhost ht
    have hd : doneBit s.status = false := by rw [status_eq_of_busy hinv hb, doneBit_statusAccepted]
    rw [run_succ_of_next (k + 1) (step_wait_of_not_done ht hd hhost)]
    exact ih _ rest { hinv with } hb hhost rfl

end Sys2Proof.Machine
end

section
/-! PROOFS. The sentinel, the codec's inverse laws, the channel laws of one byte, and the streaming detector (R90, R100,
R107, R110, R123, R124, R150, R153). -/

namespace Sys2Proof.Machine

open Sys2Proof.Claims

/-! ## Serialized payloads -/

/-- The first 8n bits of the stream are the payload's own. -/
theorem take_stream (T : List Byte) : (stream T).take (8 * T.length) = T.flatMap bits8 := by
  rw [stream_eq_append, List.take_left' (length_flatMap_bits8 T)]

theorem decodeBits_flatMap_bits8 (T : List Byte) : decodeBits (T.flatMap bits8) = T := by
  have h := decodeBits_flatMap_append T []
  rwa [List.append_nil, decodeBits_of_length_lt (D := []) (by decide), List.append_nil] at h

/-- Code points below 256 come back from their bytes by zero extension. -/
theorem map_setWidth_lowByte {T : List Word} (h : ∀ w ∈ T, w.toNat < 256) :
    (T.map lowByte).map (fun b => b.setWidth 32) = T := by
  rw [List.map_map]
  exact (List.map_congr_left fun w hw => setWidth_lowByte (h w hw)).trans (List.map_id T)

/-! ## The channel transforms of one byte -/

/-- X of E flips the payload bit by the XOR of the two low bits (R123). -/
theorem extractBit_embedBit (v : Byte) (m : Bool) : extractBit (embedBit v m) = (m ^^ v.getLsbD 1 ^^ v.getLsbD 0) := by
  rw [extractBit_eq, getLsbD_embedBit, getLsbD_embedBit, if_pos rfl, if_neg (by decide), Bool.xor_comm (v.getLsbD 1)]

theorem low_bits_eq_iff (v : Byte) : v.getLsbD 1 = v.getLsbD 0 ↔ v.toNat % 4 = 0 ∨ v.toNat % 4 = 3 := by
  revert v
  decide

/-! ## The window of SENT_MATCH -/

theorem sentWord_eq_append : sentWord = 0x28#8 ++ 0x656E6429#32 := by decide

theorem extractLsb'_low_eq_iff (w : Word) : w.extractLsb' 0 8 = 0x28#8 ↔ w.toNat % 256 = 0x28 := by
  rw [← BitVec.toNat_inj, BitVec.extractLsb'_toNat, Nat.shiftRight_zero]
  rfl

theorem windowOperand_eq_sentWord_iff (s : State) :
    windowOperand s = sentWord ↔ s.opb.toNat % 256 = 0x28 ∧ s.opa = 0x656E6429#32 := by
  rw [← extractLsb'_low_eq_iff, windowOperand, sentWord_eq_append]
  constructor
  · intro h
    have hhigh := congrArg (BitVec.extractLsb' 32 8) h
    have hlow := congrArg (BitVec.extractLsb' 0 32) h
    rw [BitVec.extractLsb'_append_eq_left, BitVec.extractLsb'_append_eq_left] at hhigh
    rw [BitVec.extractLsb'_append_eq_right, BitVec.extractLsb'_append_eq_right] at hlow
    exact ⟨hhigh, hlow⟩
  · rintro ⟨hhigh, hlow⟩
    rw [hhigh, hlow]

/-! ## Where SENT_BITS stands -/

theorem sentinelAt_le {r : List Bool} {q : Nat} (h : SentinelAt r q) : q + 40 ≤ r.length := by
  have hlen := congrArg List.length h
  rw [List.length_take, List.length_drop, length_sentBits] at hlen
  omega

/-- Bits past the 40 do not matter to a match. -/
theorem sentinelAt_append_iff {r D : List Bool} {q : Nat} (h : q + 40 ≤ r.length) :
    SentinelAt (r ++ D) q ↔ SentinelAt r q := by
  rw [SentinelAt, SentinelAt, List.drop_append_of_le_length (by omega),
    List.take_append_of_le_length (by rw [List.length_drop]; omega)]

/-! ## The streaming detector -/

/-- The window SW after a list of bits, with no stop at a match (R150). -/
def window (l : List Bool) : BitVec 40 := l.foldl (fun w b => w.extractLsb' 0 39 ++ BitVec.ofBool b) 0

theorem window_append (l : List Bool) (b : Bool) :
    window (l ++ [b]) = (window l).extractLsb' 0 39 ++ BitVec.ofBool b := by
  rw [window, List.foldl_append]
  rfl

/-- Bit i of the window is the bit seen i bits ago. -/
theorem getLsbD_window (l : List Bool) {i : Nat} (hi : i < 40) : (window l).getLsbD i = (l.reverse[i]?).getD false := by
  induction l using List.reverseRecOn generalizing i with
  | nil => simp [window]
  | append_singleton l b ih =>
    rw [window_append, List.reverse_append, List.reverse_singleton, List.singleton_append, BitVec.getLsbD_append]
    cases i with
    | zero => simp
    | succ i =>
      rw [if_neg (by omega), BitVec.getLsbD_extractLsb', Nat.zero_add, Nat.add_sub_cancel, ih (by omega),
        decide_eq_true (by omega), Bool.true_and, List.getElem?_cons_succ]

/-- Once 40 bits are in, the window is the last 40 of them. -/
theorem take_reverse_eq_window {l : List Bool} (h : 40 ≤ l.length) :
    l.reverse.take 40 = (List.range 40).map (window l).getLsbD := by
  refine List.ext_getElem? fun i => ?_
  by_cases hi : i < 40
  · have hget : l.reverse[i]? = some (l.reverse[i]'(by rw [List.length_reverse]; omega)) := List.getElem?_eq_getElem _
    rw [List.getElem?_take_of_lt hi, List.getElem?_map, List.getElem?_range hi, Option.map_some, getLsbD_window l hi, hget,
      Option.getD_some]
  · rw [List.getElem?_eq_none (by rw [List.length_take]; omega), List.getElem?_eq_none (by simpa using hi)]

theorem reverse_sentBits : sentBits.reverse = (List.range 40).map sentWord.getLsbD := by decide

/-- The window holds the sentinel's number exactly when SENT_BITS ends the bits seen. -/
theorem window_eq_sentWord_iff {l : List Bool} (h : 40 ≤ l.length) :
    window l = sentWord ↔ SentinelAt l (l.length - 40) := by
  have hlast : SentinelAt l (l.length - 40) ↔ l.reverse.take 40 = sentBits.reverse := by
    rw [SentinelAt, List.take_of_length_le (by rw [List.length_drop]; omega), List.take_reverse,
      List.reverse_inj]
  rw [hlast, take_reverse_eq_window h, reverse_sentBits, List.map_inj_left]
  refine ⟨fun heq i _ => by rw [heq], fun hbits => ?_⟩
  exact BitVec.eq_of_getLsbD_eq fun i hi => hbits i (List.mem_range.2 hi)

theorem firstMatch_append_of_some {l : List Bool} {p : Nat} (h : firstMatch l = some p) (D : List Bool) :
    firstMatch (l ++ D) = some p := by
  obtain ⟨hat, hlt⟩ := (firstMatch_eq_some_iff l p).1 h
  have hle := sentinelAt_le hat
  exact (firstMatch_eq_some_iff _ p).2 ⟨(sentinelAt_append_iff hle).2 hat,
    fun q hq => by rw [sentinelAt_append_iff (by omega)]; exact hlt q hq⟩

/-- With no match before it, a new bit can only end a match. -/
theorem firstMatch_append_of_none {l : List Bool} (h : firstMatch l = none) (b : Bool) :
    firstMatch (l ++ [b]) =
      if 40 ≤ l.length + 1 ∧ window (l ++ [b]) = sentWord then some (l.length + 1 - 40) else none := by
  have hnone := (firstMatch_eq_none_iff l).1 h
  have hlen : (l ++ [b]).length = l.length + 1 := List.length_append
  have hearlier : ∀ q, q + 40 ≤ l.length → ¬ SentinelAt (l ++ [b]) q := fun q hq => by
    rw [sentinelAt_append_iff hq]
    exact hnone q
  split
  · next hmatch =>
    obtain ⟨hfull, hwindow⟩ := hmatch
    rw [firstMatch_eq_some_iff, ← hlen]
    exact ⟨(window_eq_sentWord_iff (by omega)).1 hwindow, fun q hq => hearlier q (by omega)⟩
  · next hno =>
    rw [firstMatch_eq_none_iff]
    intro q hq
    have hle := sentinelAt_le hq
    by_cases hqlast : q + 40 ≤ l.length
    · exact hearlier q hqlast hq
    · obtain rfl : q = (l ++ [b]).length - 40 := by omega
      exact hno ⟨by omega, (window_eq_sentWord_iff (by omega)).2 hq⟩

/-- The detector after a list of bits: still running on the last 40 of them, or stopped at the first match. -/
theorem foldl_detectorPush (l : List Bool) :
    (firstMatch l = none → l.foldl detectorPush detectorStart = { sw := window l, q := l.length, pos := none }) ∧
    (∀ p, firstMatch l = some p →
      (l.foldl detectorPush detectorStart).pos = some p ∧ (l.foldl detectorPush detectorStart).q = p + 40) := by
  induction l using List.reverseRecOn with
  | nil => exact ⟨fun _ => rfl, nofun⟩
  | append_singleton l b ih =>
    obtain ⟨hrunning, hstopped⟩ := ih
    rw [List.foldl_append, List.foldl_cons, List.foldl_nil]
    cases hm : firstMatch l with
    | some p =>
      obtain ⟨hpos, hq⟩ := hstopped p hm
      have hstay : detectorPush (l.foldl detectorPush detectorStart) b = l.foldl detectorPush detectorStart := by
        rw [detectorPush, hpos]
      rw [hstay, firstMatch_append_of_some hm]
      exact ⟨nofun, fun p' hp' => Option.some.inj hp' ▸ ⟨hpos, hq⟩⟩
    | none =>
      have hpush : detectorPush { sw := window l, q := l.length, pos := none } b =
          { sw := window (l ++ [b]), q := l.length + 1, pos := firstMatch (l ++ [b]) } := by
        rw [firstMatch_append_of_none hm, window_append]
        rfl
      rw [hrunning hm, hpush]
      refine ⟨fun hnone => by rw [hnone, List.length_append, List.length_singleton], fun p hp => ⟨hp, ?_⟩⟩
      rw [firstMatch_append_of_none hm] at hp
      split at hp
      · next hmatch =>
        have hp' := Option.some.inj hp
        show l.length + 1 = p + 40
        omega
      · cases hp

/-! ## The statements -/

/-- Settles O1: each word is the encoding of its command. -/
theorem commandWordsDecodeAsListed : Obligations.CommandWordsDecodeAsListed := by
  unfold Obligations.CommandWordsDecodeAsListed
  exact ⟨decode_encode .embed, decode_encode .extract, decode_encode .capacity, decode_encode .serByte,
    decode_encode .chanEmbed, decode_encode .chanExtract, decode_encode .pixSelect, decode_encode .sentMatch⟩

/-- Settles O13: 40 bits and 39 shifts, all closed facts. -/
theorem sentinelPattern : Obligations.SentinelPattern := by
  unfold Obligations.SentinelPattern
  exact ⟨rfl, length_sentBits, by decide, by decide⟩

/-- Settles O17: decoding takes serialized bytes off the front, and the bytes are the code points. -/
theorem decodeInvertsEncode : Obligations.DecodeInvertsEncode := by
  unfold Obligations.DecodeInvertsEncode
  intro T S h
  obtain ⟨hfits, rfl⟩ := encodeText_eq_some h
  have htake := take_stream (T.map lowByte)
  rw [List.length_map] at htake
  rw [htake, decodeBits_flatMap_bits8, stream, decodeBits_flatMap_bits8, List.map_append, map_setWidth_lowByte hfits]
  exact ⟨rfl, rfl⟩

/-- Settles O19: byte j of the stream is the word SER_BYTE reads, or the sentinel's byte past the payload. -/
theorem streamBitsAreSerByteBits : Obligations.StreamBitsAreSerByteBits := by
  unfold Obligations.StreamBitsAreSerByteBits
  intro s S k hcfg hload hS hk
  obtain ⟨hfits, rfl⟩ := encodeText_eq_some hS
  have hn : s.textLen.toNat ≤ 536870906 := Nat.le_trans hcfg (Nat.le_of_lt_succ s.params.textDepth.isLt)
  have hindex : indexOperand { s with opa := BitVec.ofNat 32 (k / 8) } = k / 8 := by
    rw [indexOperand, BitVec.toNat_ofNat, Nat.mod_eq_of_lt (by omega)]
  have hc : configError .serByte { s with opa := BitVec.ofNat 32 (k / 8) } = false := configError_serByte_eq_false hcfg
  by_cases hj : k / 8 < s.textLen.toNat
  case pos =>
    obtain ⟨w, hw⟩ := hload _ hj
    have hword : (payload s)[k / 8]? = some w := by rw [getElem?_payload hj, txtRead_eq hw]
    refine ⟨_, execSerByte_of_fits hc (by rwa [hindex]) (by rwa [hindex]) (hfits w (List.mem_of_getElem? hword)),
      by simp, ?_⟩
    rw [complete_result, setResult_result, getElem?_stream_payload hword]
  case neg =>
    have hlt : k / 8 - s.textLen.toNat < sent.length := by
      rw [length_sent]
      omega
    have hb := List.getElem?_eq_getElem hlt
    have hlen : ((payload s).map lowByte).length = s.textLen.toNat := by rw [List.length_map, length_payload, textCount]
    refine ⟨_, execSerByte_of_sent hc (by rw [hindex]; exact Nat.not_lt.mp hj) (by rw [hindex]; exact hb), by simp, ?_⟩
    rw [complete_result, setResult_result, getLsbD_setWidth_byte,
      getElem?_stream_sent (by rw [hlen]; exact Nat.not_lt.mp hj) (by rw [hlen]; exact hb)]

/-- Settles O22: the payload bit comes back exactly when the two low bits are equal. -/
theorem channelCompositionLaw : Obligations.ChannelCompositionLaw := by
  unfold Obligations.ChannelCompositionLaw
  intro v m
  rw [extractBit_embedBit, ← low_bits_eq_iff]
  refine ⟨rfl, ?_⟩
  cases m <;> cases v.getLsbD 1 <;> cases v.getLsbD 0 <;> decide

/-- Settles O23: a fact of the 256 bytes. -/
theorem zeroingCorner : Obligations.ZeroingCorner := by
  unfold Obligations.ZeroingCorner
  decide

/-- Settles O25: RESULT tests the window, which is the two operands side by side. -/
theorem sentMatchTestsTheWindow : Obligations.SentMatchTestsTheWindow := by
  unfold Obligations.SentMatchTestsTheWindow
  refine fun s => ⟨_, execSentMatch_eq s, completed_complete .none s rfl, keepsAllButResult_setResult .none _ s, ?_⟩
  rw [complete_result, setResult_result]
  by_cases hw : windowOperand s = sentWord
  · exact .inl ⟨if_pos hw, (windowOperand_eq_sentWord_iff s).1 hw⟩
  · refine .inr ⟨if_neg hw, ?_⟩
    rw [windowOperand_eq_sentWord_iff] at hw
    exact not_and_or.1 hw

/-- Settles O29: the detector runs until the first match and stops at its last bit. -/
theorem streamingDetectorFindsTheFirstMatch : Obligations.StreamingDetectorFindsTheFirstMatch := by
  unfold Obligations.StreamingDetectorFindsTheFirstMatch
  intro r
  obtain ⟨hrunning, hstopped⟩ := foldl_detectorPush r
  refine ⟨?_, fun p hp => (hstopped p hp).2, fun hnone => by rw [hrunning hnone]⟩
  cases hm : firstMatch r with
  | none => rw [hrunning hm]
  | some p => exact (hstopped p hm).1

end Sys2Proof.Machine
end

section
/-! PROOFS. The slots as the statements describe them, EMBED's success and what it leaves alone, EXTRACT up to a match,
and the round trip (R144, R170, R172, R174, R175). -/

namespace Sys2Proof.Machine

open Sys2Proof.Claims

/-! ## Slots -/

theorem mem_slots_iff (s : State) (a : Nat) : a ∈ slots s ↔
    ∃ y x c, y < s.height.toNat ∧ x < s.width.toNat ∧ c < 3 ∧ PixelProcessed s y x ∧
      a = (y * s.width.toNat + x) * s.channels.toNat + c := by
  simp only [pixelProcessed_iff]
  exact mem_slotsOf

/-- With three channels no pixel is skipped (R140, R143). -/
theorem procPixels_of_rgb {s : State} (h : imgC s = 3) : procPixels s = imgW s * imgH s := by
  rw [procPixels, processedCount, ← length_raster, List.countP_eq_length]
  exact fun p _ => if_pos h

theorem slots_nodup {s : State} (hC : imgC s = 3 ∨ imgC s = 4) : (slots s).Nodup :=
  slotsOf_nodup (by omega) s.pix

/-- Slots repeat no address, so a slot has one index. -/
theorem slot_index_unique {s : State} (hC : imgC s = 3 ∨ imgC s = 4) {k k' a : Nat} (hk : (slots s)[k]? = some a)
    (hk' : (slots s)[k']? = some a) : k = k' :=
  (List.getElem?_inj (List.getElem?_eq_some_iff.1 hk).1 (slots_nodup hC)).1 (hk.trans hk'.symm)

/-- No alpha byte is a slot. -/
theorem alpha_notMem_slots {s : State} (hC : s.channels.toNat = 4) {y x : Nat} (hx : x < s.width.toNat) :
    (y * s.width.toNat + x) * 4 + 3 ∉ slots s := by
  rw [mem_slots_iff]
  rintro ⟨y', x', c, -, hx', hc, -, heq⟩
  rw [hC] at heq
  obtain ⟨-, -, rfl⟩ := pixelAddr_injective (C := 4) hx hx' (by decide) (by omega) heq
  omega

/-- No byte of a skipped pixel is a slot. -/
theorem skipped_notMem_slots {s : State} (hC : imgC s = 3 ∨ imgC s = 4) {y x c : Nat} (hx : x < s.width.toNat)
    (hc : c < s.channels.toNat) (hskip : ¬ PixelProcessed s y x) :
    (y * s.width.toNat + x) * s.channels.toNat + c ∉ slots s := by
  have hC' : 3 ≤ s.channels.toNat := by
    rw [imgC] at hC
    omega
  rw [mem_slots_iff]
  rintro ⟨y', x', c', -, hx', hc', hproc, heq⟩
  obtain ⟨rfl, rfl, -⟩ := pixelAddr_injective hx hx' hc (by omega) heq
  exact hskip hproc

/-! ## EMBED's success -/

theorem execEmbed_of_fits {s : State} {S : List Bool} (hc : configError .embed s = false) (ht : textWritten s = true)
    (hS : encodeText (payload s) = some S) (hi : imageWritten s = true) (hfits : payloadFits s = true) :
    execEmbed s = .next (complete .none
      { setCounts (procPixels s) (textCount s) s with pix := embedInto s.pix (slots s) S }) := by
  simpa [hc, ht, hS, hi, hfits] using execEmbed_cases s

/-- A byte that EMBED changes is the slot of a stream bit 1, and was changed by `embedBit`. -/
theorem exists_slot_of_changed {s t : State} {a : Nat} (h : execEmbed s = .next t)
    (hne : Memory.find t.pix a ≠ Memory.find s.pix a) :
    ∃ (S : List Bool) (k : Nat), (imgC s = 3 ∨ imgC s = 4) ∧ encodeText (payload s) = some S ∧
      S[k]? = some true ∧ (slots s)[k]? = some a ∧
      Memory.find t.pix a = some (embedBit (pixRead s.pix a) true) := by
  rcases execEmbed_next_cases h with ⟨-, hpix⟩ | ⟨S, hc, hS, hi, hfits, rfl⟩
  · exact absurd (by rw [hpix]) hne
  have hC := channels_of_configError rfl hc
  have hmem : a ∈ (slots s).take S.length := not_imp_comm.1 find_embedInto_of_notMem hne
  obtain ⟨k, hk⟩ := List.mem_iff_getElem?.1 hmem
  have hklt : k < S.length := by
    have hlt := (List.getElem?_eq_some_iff.1 hk).1
    rw [List.length_take] at hlt
    omega
  rw [List.getElem?_take_of_lt hklt] at hk
  have hbit := List.getElem?_eq_getElem hklt
  have hfind := find_embedInto_slot (m := s.pix) (slots_nodup hC) hk hbit
  cases hb : S[k] with
  | true => exact ⟨S, k, hC, hS, hb ▸ hbit, hk, hb ▸ hfind⟩
  | false =>
    obtain ⟨v, hv⟩ := exists_find_of_slot (by omega) hi hk
    rw [hb, embedBit_false, pixRead_eq hv] at hfind
    exact absurd (hfind.trans hv.symm) hne

theorem find_execEmbed_of_notMem {s t : State} {a : Nat} (h : execEmbed s = .next t) (ha : a ∉ slots s) :
    Memory.find t.pix a = Memory.find s.pix a := by
  by_contra hne
  obtain ⟨S, k, -, -, -, hk, -⟩ := exists_slot_of_changed h hne
  exact ha (List.mem_of_getElem? hk)

theorem find_execEmbed_of_skipped {s t : State} {y x c : Nat} (h : execEmbed s = .next t) (hx : x < s.width.toNat)
    (hc : c < s.channels.toNat) (hskip : ¬ PixelProcessed s y x) :
    Memory.find t.pix ((y * s.width.toNat + x) * s.channels.toNat + c) =
      Memory.find s.pix ((y * s.width.toNat + x) * s.channels.toNat + c) := by
  by_contra hne
  obtain ⟨S, k, hC, -, -, hk, -⟩ := exists_slot_of_changed h hne
  exact skipped_notMem_slots hC hx hc hskip (List.mem_of_getElem? hk)

/-! ## EXTRACT up to a match -/

theorem execExtract_of_match {s : State} {p : Nat} (hc : configError .extract s = false) (hi : imageWritten s = true)
    (hm : firstMatch (recovered s) = some p) :
    execExtract s = .next (complete .none (deliver ((recovered s).take p) p (p + 40) true s)) := by
  simpa [hc, hi, hm] using execExtract_cases s

/-- The bytes decoded from the first p bits are those of the whole stream. -/
theorem byteSum_take {D : List Bool} {p j : Nat} (hj : j < p / 8) : byteSum (D.take p) j = byteSum D j := by
  refine Finset.sum_congr rfl fun i hi => ?_
  have hi' := Finset.mem_range.1 hi
  rw [bitAt, bitAt, List.getElem?_take_of_lt (by omega)]

/-- Bit k of the recovered stream is X of the byte at slot k. -/
theorem getElem?_recovered {s : State} {k a : Nat} {v : Byte} (ha : (slots s)[k]? = some a)
    (hv : Memory.find s.pix a = some v) : (recovered s)[k]? = some (extractBit v) := by
  rw [recovered, List.getElem?_map, ha, Option.map_some, pixRead_eq hv]

/-! ## EXTRACT after EMBED (R174) -/

/-- Bits 1 and 0 are equal in every payload slot of the carrier (R174). -/
def EvenCarrier (s : State) : Prop := ∀ k a, k < 8 * (s.textLen.toNat + 5) → (slots s)[k]? = some a →
  (pixRead s.pix a).getLsbD 1 = (pixRead s.pix a).getLsbD 0

/-- E clears no byte whose two low bits are equal (R124). -/
theorem embedBit_ne_zero {v : Byte} (hv : v ≠ 0) (heven : v.getLsbD 1 = v.getLsbD 0) (m : Bool) : embedBit v m ≠ 0 := by
  rw [Ne, zeroingCorner v m hv]
  rintro ⟨rfl, -⟩
  cases heven

section
variable {s t : State} (h : execEmbed s = .next t) (heven : EvenCarrier s)
include h heven

theorem pixRead_execEmbed_ne_zero {a : Nat} (ha : pixRead s.pix a ≠ 0) : pixRead t.pix a ≠ 0 := by
  by_cases hsame : Memory.find t.pix a = Memory.find s.pix a
  · rwa [pixRead_congr hsame]
  · obtain ⟨S, k, -, hS, hbit, hk, hfind⟩ := exists_slot_of_changed h hsame
    have hklt : k < 8 * (s.textLen.toNat + 5) := by
      have hlt := (List.getElem?_eq_some_iff.1 hbit).1
      rwa [length_of_encodeText hS, length_payload] at hlt
    rw [pixRead_eq hfind]
    exact embedBit_ne_zero ha (heven k a hklt hk) true

/-- EMBED into an even carrier skips and processes the same pixels afterwards. -/
theorem pixelProcessed_execEmbed_iff {y x : Nat} (hC : s.channels.toNat = 3 ∨ s.channels.toNat = 4)
    (hx : x < s.width.toNat) : PixelProcessed t y x ↔ PixelProcessed s y x := by
  obtain ⟨hwidth, -, hchannels, -⟩ := (exec_effect (i := .embed) h).keepsInputs
  unfold PixelProcessed
  rw [hwidth, hchannels]
  rcases hC with hC | hC
  · exact iff_of_true (.inl hC) (.inl hC)
  by_cases hproc : PixelProcessed s y x
  · refine iff_of_true (.inr fun c hc => ?_) hproc
    exact pixRead_execEmbed_ne_zero h heven (hproc.resolve_left (by omega) c hc)
  · refine or_congr_right (forall_congr' fun c => forall_congr' fun hc => ?_)
    rw [pixRead_congr (find_execEmbed_of_skipped h hx (by omega) hproc)]

theorem slots_execEmbed (hC : s.channels.toNat = 3 ∨ s.channels.toNat = 4) : slots t = slots s := by
  obtain ⟨hwidth, hheight, hchannels, -⟩ := (exec_effect (i := .embed) h).keepsInputs
  have hprocessed : ∀ y x, y < imgH s → x < imgW s →
      processed (imgW s) (imgC s) t.pix y x = processed (imgW s) (imgC s) s.pix y x := fun y x _ hx => by
    have hiff := pixelProcessed_execEmbed_iff (y := y) h heven hC hx
    rwa [pixelProcessed_iff, pixelProcessed_iff, imgW, imgC, hwidth, hchannels, ← Bool.eq_iff_iff] at hiff
  rw [slots, imgW, imgH, imgC, hwidth, hheight, hchannels]
  exact slotsOf_congr hprocessed

/-- EXTRACT recovers the stream EMBED wrote, and then the bits of the slots past it. -/
theorem prefix_recovered_execEmbed {S : List Bool} (hC : s.channels.toNat = 3 ∨ s.channels.toNat = 4)
    (hS : encodeText (payload s) = some S) (hnone : errField t.status = errCode .none) : S <+: recovered t := by
  rw [List.prefix_iff_getElem?]
  intro k hk
  rcases embedIsAllOrNothing s t h with ⟨-, S', hS', hlen, hwritten⟩ | ⟨hne, -⟩
  · obtain rfl : S' = S := Option.some.inj (hS'.symm.trans hS)
    obtain ⟨a, v, ha, hv, hfind⟩ := hwritten k _ (List.getElem?_eq_getElem hk)
    have hlow := heven k a (hlen ▸ hk) ha
    rw [pixRead_eq hv] at hlow
    rw [getElem?_recovered (by rwa [slots_execEmbed h heven hC]) hfind, extractBit_embedBit, hlow, Bool.xor_assoc,
      Bool.xor_self, Bool.xor_false]
  · exact absurd hnone hne

end

/-- The sentinel stands where the payload ends. -/
theorem sentinelAt_stream (T : List Byte) : SentinelAt (stream T) (8 * T.length) := by
  rw [SentinelAt, stream_eq_append, List.drop_left' (length_flatMap_bits8 T),
    List.take_of_length_le (by rw [length_sentBits])]

/-- A stream without an early sentinel is matched at its payload's end, whatever follows it. -/
theorem firstMatch_of_prefix {T : List Byte} {r : List Bool} (hpre : stream T <+: r)
    (hearly : ∀ q, q < 8 * T.length → ¬ SentinelAt (stream T) q) : firstMatch r = some (8 * T.length) := by
  obtain ⟨D, rfl⟩ := hpre
  have hlen := length_stream T
  exact (firstMatch_eq_some_iff _ _).2 ⟨(sentinelAt_append_iff (by omega)).2 (sentinelAt_stream T),
    fun q hq => by rw [sentinelAt_append_iff (by omega)]; exact hearly q hq⟩

theorem take_of_stream_prefix {T : List Byte} {r : List Bool} (hpre : stream T <+: r) :
    r.take (8 * T.length) = T.flatMap bits8 := by
  obtain ⟨D, rfl⟩ := hpre
  rw [List.take_append_of_le_length (by rw [length_stream]; omega), take_stream]

/-- The words EXTRACT delivers for serialized bytes are those bytes. -/
theorem find_deliver_flatMap_bits8 (T : List Byte) {pos scanned : Nat} {found : Bool} {s : State} {j : Nat}
    (hj : j < T.length) : Memory.find (deliver (T.flatMap bits8) pos scanned found s).txt j =
      (T[j]?).map fun b => b.setWidth 32 := by
  rw [deliver_txt, decodeBits_truncate8, decodeBits_flatMap_bits8, find_writeText, if_pos ⟨Nat.zero_le j, by omega⟩,
    Nat.sub_zero]

/-! ## The statements -/

/-- Settles O27: `slotsOf` walks the raster, and P is its count of processed pixels. -/
theorem slotsAreInRasterOrder : Obligations.SlotsAreInRasterOrder := by
  unfold Obligations.SlotsAreInRasterOrder
  intro s hC
  rw [pixelsProcessed_eq]
  exact ⟨slotsOf_pairwise (by rw [imgC]; omega) s.pix, mem_slots_iff s, length_slots s, procPixels_of_rgb⟩

/-- Settles O30: every check passes, and the write loop has a written slot for every stream bit. -/
theorem embedWritesTheStreamIntoTheSlots : Obligations.EmbedWritesTheStreamIntoTheSlots := by
  unfold Obligations.EmbedWritesTheStreamIntoTheSlots
  intro s himg htext hload hfits himage hroom
  obtain ⟨S, hS⟩ := exists_encodeText_payload hload hfits
  obtain ⟨hproc, hcap, hreq⟩ := toNat_counts htext
  have hi := (imageLoaded_iff s).1 himage
  have hC : 3 ≤ imgC s := by
    have := himg.1
    rw [imgC]
    omega
  have hlen : S.length = 8 * (s.textLen.toNat + 5) := by rw [length_of_encodeText hS, length_payload, textCount]
  rw [pixelsProcessed_eq] at hroom ⊢
  have hfit : payloadFits s = true := (payloadFits_iff s).2 hroom
  refine ⟨_, S, execEmbed_of_fits (configError_embed_eq_false himg htext) ((textLoaded_iff s).1 hload) hS hi hfit,
    hS, hlen, completed_complete .none s rfl, fun k b hb => ?slot, fun a ha => ?other, hproc, hcap, hreq,
    by simp [KeepsInputs], rfl, rfl, fun _ => rfl, rfl, rfl⟩
  case slot =>
    obtain ⟨a, ha⟩ := exists_slot_of_payloadFits hfit hS hb
    obtain ⟨v, hv⟩ := exists_find_of_slot hC hi ha
    exact ⟨a, v, ha, hv, find_embedInto_slots hC ha hv hb⟩
  case other => exact find_embedInto_of_notMem (hlen ▸ ha)

/-- Settles O34: a changed byte is the slot of a stream bit 1, and none of these bytes is. -/
theorem embedLeavesTheRestOfTheImage : Obligations.EmbedLeavesTheRestOfTheImage := by
  unfold Obligations.EmbedLeavesTheRestOfTheImage
  intro s t h
  obtain ⟨hwidth, hheight, hchannels, -⟩ := (exec_effect h).keepsInputs
  refine ⟨fun y x hC _ hx => ?alpha, fun y x c _ hx hc hskip => ?skipped, fun k a hk ha => ?past,
    fun k a S hS hbit ha => ?zeroBit, hwidth, hheight, hchannels⟩
  case alpha => exact find_execEmbed_of_notMem h (alpha_notMem_slots hC hx)
  case skipped => exact find_execEmbed_of_skipped h hx hc hskip
  case past =>
    by_contra hne
    obtain ⟨S, k', hC, hS, hbit, ha', -⟩ := exists_slot_of_changed h hne
    have hlt := (List.getElem?_eq_some_iff.1 hbit).1
    rw [length_of_encodeText hS, length_payload, textCount] at hlt
    have hk' := slot_index_unique hC ha ha'
    omega
  case zeroBit =>
    by_contra hne
    obtain ⟨S', k', hC, hS', hbit', ha', -⟩ := exists_slot_of_changed h hne
    obtain rfl : S' = S := Option.some.inj (hS'.symm.trans hS)
    obtain rfl := slot_index_unique hC ha ha'
    cases hbit.symm.trans hbit'

/-- Settles O36: EXTRACT delivers the p bits before the match, whose bytes are those of the recovered stream. -/
theorem extractDeliversTheTextBeforeTheMatch : Obligations.ExtractDeliversTheTextBeforeTheMatch := by
  unfold Obligations.ExtractDeliversTheTextBeforeTheMatch
  intro s p himg hout hload hat hfirst
  have hexec := execExtract_of_match (configError_extract_eq_false himg hout) ((imageLoaded_iff s).1 hload)
    ((firstMatch_eq_some_iff _ p).2 ⟨hat, hfirst⟩)
  have hle : p + 40 ≤ 3 * procPixels s := length_recovered s ▸ sentinelAt_le hat
  have hlen : ((recovered s).take p).length = p := by rw [List.length_take, length_recovered]; omega
  refine ⟨_, hexec, fun j hj => ?text, fun j hj => ?otherText, ?textLen, ?sentPos, ?scanned, ?busy, ?done, ?err, ?sfound,
    ?trunc, keepsInputs_complete_deliver .none, rfl, fun _ => rfl, rfl, rfl, rfl⟩
  case text => rw [complete_txt, find_deliver_txt_of_lt (by rwa [hlen]), byteSum_take hj]
  case otherText => rw [complete_txt, find_deliver_txt_of_ge (by rwa [hlen])]
  case textLen =>
    rw [complete_textLen, deliver_textLen, hlen, toNat_ofNat_of_le_slots (s := s) (by omega)]
  case sentPos => rw [complete_sentPos, deliver_sentPos, toNat_ofNat_of_le_slots (s := s) (by omega)]
  case scanned => rw [complete_bitsScanned, deliver_bitsScanned, toNat_ofNat_of_le_slots hle]
  case trunc => rw [complete_status, deliver_status, hlen, truncBit_statusCompleted, truncBit_statusWithFlags]
  all_goals simp

/-- Settles O38: the recovered stream is one bit per slot. -/
theorem recoveredBitsAreTheSlotsInOrder : Obligations.RecoveredBitsAreTheSlotsInOrder := by
  unfold Obligations.RecoveredBitsAreTheSlotsInOrder
  refine fun s => ⟨by rw [recovered, List.length_map], fun k a v ha hv => ?_⟩
  rw [getElem?_recovered ha hv, extractBit_eq]

/-- Settles O39: EMBED moves no slot of an even carrier, so EXTRACT recovers the stream from its start, matches it at the
payload's end and decodes the payload's bytes. -/
theorem roundTrip : Obligations.RoundTrip := by
  unfold Obligations.RoundTrip
  intro s S himg htext hout hload himage hS hroom heven hearly
  obtain ⟨hfits, rfl⟩ := encodeText_eq_some hS
  have htextFits : TextFits s := (encodeText_payload_ne_none_iff hload).1 (by simp [hS])
  obtain ⟨t, -, hembed, -, -, ⟨-, -, herr, -⟩, -, -, -, -, -, hinputs, -⟩ :=
    embedWritesTheStreamIntoTheSlots s himg htext hload htextFits himage hroom
  obtain ⟨hwidth, hheight, hchannels, -, -, -, hparams, -⟩ := hinputs
  have hlen : ((payload s).map lowByte).length = s.textLen.toNat := by rw [List.length_map, length_payload, textCount]
  have hpre := prefix_recovered_execEmbed hembed heven himg.1 hS herr
  have hmatch := firstMatch_of_prefix hpre (hlen.symm ▸ hearly)
  have himgT : ImageConfigured t := by rwa [ImageConfigured, hwidth, hheight, hchannels, hparams]
  have hloadT : ImageLoaded t := fun a ha => by
    rw [hwidth, hheight, hchannels] at ha
    rw [← Option.isSome_iff_exists, (exec_effect hembed).isSome_find_pix, Option.isSome_iff_exists]
    exact himage a ha
  have hextract := execExtract_of_match (configError_extract_eq_false himgT (by rwa [hwidth, hheight, hparams]))
    ((imageLoaded_iff t).1 hloadT) hmatch
  have hle : 8 * s.textLen.toNat + 40 ≤ 3 * procPixels t := by
    have := hpre.length_le
    rw [length_stream, length_recovered, hlen] at this
    omega
  rw [take_of_stream_prefix hpre, hlen] at hextract
  refine ⟨t, _, hembed, herr, hextract, ?err, ?textLen, fun j hj => ?text, ?sfound, ?trunc, ?sentPos, ?scanned⟩
  case textLen =>
    rw [complete_textLen, deliver_textLen, length_flatMap_bits8, hlen, Nat.mul_div_cancel_left _ (by decide),
      BitVec.ofNat_toNat, BitVec.setWidth_eq]
  case text =>
    obtain ⟨w, hw⟩ := hload j hj
    have hword : (payload s)[j]? = some w := by rw [getElem?_payload hj, txtRead_eq hw]
    rw [complete_txt, find_deliver_flatMap_bits8 _ (by rwa [hlen]), List.getElem?_map, hword, Option.map_some,
      Option.map_some, setWidth_lowByte (hfits w (List.mem_of_getElem? hword)), hw]
  case trunc =>
    rw [complete_status, truncBit_statusCompleted, deliver_status, truncBit_statusWithFlags, length_flatMap_bits8]
    exact decide_eq_false (by omega)
  case sentPos => rw [complete_sentPos, deliver_sentPos, toNat_ofNat_of_le_slots (s := t) (by omega)]
  case scanned => rw [complete_bitsScanned, deliver_bitsScanned, toNat_ofNat_of_le_slots hle]
  all_goals simp

end Sys2Proof.Machine
end
